-- ==== Sys2Proof/Word.lean ====
section
/-! DEFINITION. The data words of H256MC: the byte, the 32-bit word and the 32-byte value (00_scope.md R5, 10_state.md R11, R12). -/

namespace Sys2Proof

/-- One byte of a message or of a HashID. -/
abbrev Byte := BitVec 8

/-- The 32-bit word that a host transaction moves and that a command is (R5). -/
abbrev Word := BitVec 32

/-- A present HashID: exactly 32 bytes in stored order, byte 0 the first that the hash produced (R11, R12). -/
structure Bytes32 where
  bytes : List Byte
  size : bytes.length = 32
  deriving DecidableEq, Repr

/-- Stored byte `i` of a HashID, for `i` below 32. -/
def Bytes32.byte (h : Bytes32) (i : Nat) : Byte :=
  h.bytes.getD i 0#8

/-- 32 zero bytes: a present value, not nil (R11, and Z of 20_memory.md R46). -/
def Bytes32.zero : Bytes32 :=
  ⟨List.replicate 32 0#8, by simp⟩

end Sys2Proof
end

