-- ==== Sys2Proof/Syntax.lean ====
section
/-! DEFINITION. The eleven commands of the opcode map (30_encoding.md R73). -/

namespace Sys2Proof

/-- A command. Operands are unsigned integers taken from the A and B fields as they stand (R72):
`s` and `b` are slot indices from A, `n` is a count from B. -/
inductive Instr where
  | nop
  | lda (s : Nat)
  | sta (s : Nat)
  | clrs (s n : Nat)
  | clra
  | hbr (s : Nat)
  | hbl (s : Nat)
  | fold (s n : Nat)
  | build (b n : Nat)
  | cmp (s : Nat)
  | dhash
  deriving DecidableEq, Repr

/-- The mnemonic of 30_encoding.md R73. -/
def Instr.mnemonic : Instr → String
  | .nop => "NOP"
  | .lda _ => "LDA"
  | .sta _ => "STA"
  | .clrs _ _ => "CLRS"
  | .clra => "CLRA"
  | .hbr _ => "HBR"
  | .hbl _ => "HBL"
  | .fold _ _ => "FOLD"
  | .build _ _ => "BUILD"
  | .cmp _ => "CMP"
  | .dhash => "DHASH"

/-- The opcode OPC of 30_encoding.md R73. -/
def Instr.opcode : Instr → Nat
  | .nop => 0x0
  | .lda _ => 0x1
  | .sta _ => 0x2
  | .clrs _ _ => 0x3
  | .clra => 0x4
  | .hbr _ => 0x5
  | .hbl _ => 0x6
  | .fold _ _ => 0x7
  | .build _ _ => 0x8
  | .cmp _ => 0x9
  | .dhash => 0xA

/-- The value of the A field: a slot index, or 0 where the command has none (30_encoding.md R71). -/
def Instr.fieldA : Instr → Nat
  | .nop => 0
  | .lda s => s
  | .sta s => s
  | .clrs s _ => s
  | .clra => 0
  | .hbr s => s
  | .hbl s => s
  | .fold s _ => s
  | .build b _ => b
  | .cmp s => s
  | .dhash => 0

/-- The value of the B field: a count, or 0 where the command has none (30_encoding.md R71). -/
def Instr.fieldB : Instr → Nat
  | .nop => 0
  | .lda _ => 0
  | .sta _ => 0
  | .clrs _ n => n
  | .clra => 0
  | .hbr _ => 0
  | .hbl _ => 0
  | .fold _ n => n
  | .build _ n => n
  | .cmp _ => 0
  | .dhash => 0

end Sys2Proof
end

