-- ==== Sys2Proof/WellFormed.lean ====
section
/-! DEFINITION. Which terms of `Instr` are commands of the hardware: both operands fit their 14-bit fields (30_encoding.md R71, R72). -/

namespace Sys2Proof

/-- An operand fits a 14-bit field: 0..16383 (R72). -/
def fitsField (v : Nat) : Bool :=
  decide (v < 2 ^ 14)

/-- The command can be written in a command word: its A and its B operand fit (R71). -/
def Instr.wf : Instr → Bool
  | .nop => true
  | .lda s => fitsField s
  | .sta s => fitsField s
  | .clrs s n => fitsField s && fitsField n
  | .clra => true
  | .hbr s => fitsField s
  | .hbl s => fitsField s
  | .fold s n => fitsField s && fitsField n
  | .build b n => fitsField b && fitsField n
  | .cmp s => fitsField s
  | .dhash => true

end Sys2Proof
end

