-- ==== Sys2Proof/Decode.lean ====
section
/-! DEFINITION. The decoder and the encoder of command words (30_encoding.md R70 to R78). -/

namespace Sys2Proof

/-- Why a word is no command. Each is E_ILLCMD in the unit (60_exceptions.md R172). -/
inductive DecodeError where
  /-- Opcode 0xB to 0xF (30_encoding.md R75). -/
  | reservedOpcode
  /-- A defined opcode with a field that must be 0 and is not (30_encoding.md R76). -/
  | reservedField
  deriving DecidableEq, Repr

/-- OPC = w[31:28] (R71). -/
def opcField (w : Word) : Nat :=
  (w.extractLsb' 28 4).toNat

/-- A = zext(w[27:14]) (R72). -/
def aField (w : Word) : Nat :=
  (w.extractLsb' 14 14).toNat

/-- B = zext(w[13:0]) (R72). -/
def bField (w : Word) : Nat :=
  (w.extractLsb' 0 14).toNat

/-- The form of NOP, CLRA and DHASH: A and B must be 0 (R74 check 2). -/
def formNone (a b : Nat) (i : Instr) : Except DecodeError Instr :=
  if a = 0 ∧ b = 0 then .ok i else .error .reservedField

/-- The form of LDA, STA, HBR, HBL and CMP: B must be 0 (R74 check 2). -/
def formSlot (b : Nat) (i : Instr) : Except DecodeError Instr :=
  if b = 0 then .ok i else .error .reservedField

/-- The total decoder: checks 1 and 2 of R74, in that order. -/
def decode (w : Word) : Except DecodeError Instr :=
  match opcField w with
  | 0x0 => formNone (aField w) (bField w) .nop
  | 0x1 => formSlot (bField w) (.lda (aField w))
  | 0x2 => formSlot (bField w) (.sta (aField w))
  | 0x3 => .ok (.clrs (aField w) (bField w))
  | 0x4 => formNone (aField w) (bField w) .clra
  | 0x5 => formSlot (bField w) (.hbr (aField w))
  | 0x6 => formSlot (bField w) (.hbl (aField w))
  | 0x7 => .ok (.fold (aField w) (bField w))
  | 0x8 => .ok (.build (aField w) (bField w))
  | 0x9 => formSlot (bField w) (.cmp (aField w))
  | 0xA => formNone (aField w) (bField w) .dhash
  | _ => .error .reservedOpcode

/-- The word of three field values: OPC·2^28 + A·2^14 + B (R71). -/
def packWord (opc a b : Nat) : Word :=
  BitVec.ofNat 32 (opc * 2 ^ 28 + a * 2 ^ 14 + b)

/-- The command word of a well-formed command (R71, R73). -/
def encode (i : Instr) : Word :=
  packWord i.opcode i.fieldA i.fieldB

/-- The command word that the low `nbits` bits of `w` stand for; every bit above them is 0. -/
def tableWord (nbits w : Nat) : Word :=
  BitVec.ofNat 32 (w % 2 ^ nbits)

/-- What the decoder reads from an opcode-table word. A command is one 32-bit word latched whole into INFLIGHT
(R70, 20_memory.md R56), so no byte order comes between. -/
def decodeTableWord (nbits w : Nat) : Option Instr :=
  match decode (tableWord nbits w) with
  | .ok i => some i
  | .error _ => none

end Sys2Proof
end

