-- ==== Sys2Proof/Config.lean ====
section
/-! DEFINITION. What an implementation fixes (00_scope.md R2, R3, R4) and the values the spec leaves free
(10_state.md R33). The reference values are those of 92_eei_decisions.md D34. -/

namespace Sys2Proof

/-- Which function the parameter SHA256 is (00_scope.md R4): the reference instantiation, the standard
SHA-256 of 40_hash256.md R95 to R98, or some other function with the same contract. Log 4. -/
inductive HashFunction where
  /-- The standard SHA-256, computed by Machine/Sha256.lean. -/
  | reference
  /-- Another function; nothing is known of it but the contract of R4. -/
  | other (k : Nat)
  deriving DecidableEq, Repr

/-- The open parameters of the unit (92_eei_decisions.md, "Open parameters"). Fixed for a machine: no step
writes them. -/
structure Config where
  /-- SLOT_AW = log2 NSLOTS (R2). -/
  slotAw : Nat
  /-- MSGBYTES (R3). -/
  msgBytes : Nat
  /-- SHA256 (R4). -/
  hash : HashFunction
  deriving DecidableEq, Repr

/-- NSLOTS, a power of two by construction (R2). -/
def Config.nslots (c : Config) : Nat :=
  2 ^ c.slotAw

/-- The ranges of R2 and R3. -/
def Config.wf (c : Config) : Bool :=
  decide (1 ≤ c.slotAw ∧ c.slotAw ≤ 14 ∧ c.msgBytes % 4 = 0 ∧ 64 ≤ c.msgBytes ∧ c.msgBytes ≤ 65532)

/-- The reference configuration of 92_eei_decisions.md D34: NSLOTS = 4096, MSGBYTES = 256, SHA256 standard.
DESIGN CHOICE (log 3): the configuration that `State.reset` carries; unsafe for a claim about that state alone. -/
def Config.reference : Config :=
  { slotAw := 12, msgBytes := 256, hash := .reference }

/-- FREE VALUE (log 4): byte `i` of what the non-reference function number `k` answers on a message.
No body, so no claim can rest on what it is; the contract of R4 is its type. -/
opaque Config.otherSha256 (k : Nat) (m : List Byte) (i : Nat) : Byte

/-- FREE VALUE (log 5): the byte that MSG[a] holds after reset number `k`, until the host writes it
(10_state.md R33, 93_implementation_defined.md U7). -/
opaque Config.msgAtReset (k a : Nat) : Byte

end Sys2Proof
end

