-- ==== Sys2Proof/Machine/State.lean ====
section
/-! DEFINITION. The state of the unit (10_state.md R10, R33), the inputs that drive it, and the reasons a step
could stop. Plain data throughout. -/

namespace Sys2Proof.Machine

/-- A memory: the entries that hold a value, by index. An index with no entry holds none: a nil slot of the
slot memory (10_state.md R11), a byte of MSG that nothing has written since reset (R33; log 6). -/
abbrev Memory (β : Type) := List (Nat × β)

/-- The canonical form: indices strictly rising. What an unlisted index reads as, none, is no value of `β`, so
no entry can equal it, and equal memories are equal lists. -/
def Memory.wf {β : Type} : Memory β → Bool
  | [] => true
  | c :: m => m.all (fun d => decide (c.1 < d.1)) && Memory.wf m

/-- A transaction on the host port (20_memory.md R41). `off` is a byte offset. -/
inductive HostTxn where
  /-- `HostRead(off)`. -/
  | read (off : Nat)
  /-- `HostWrite(off, v)`. -/
  | write (off : Nat) (v : Word)
  deriving DecidableEq, Repr

/-- What the host port answers (20_memory.md R41). -/
inductive HostResp where
  /-- `ok(v)` of a read. -/
  | value (v : Word)
  /-- `ok` of a write. -/
  | ok
  /-- `err`: the offset selects no register (R42). Not a fault of the unit (60_exceptions.md R189). -/
  | err
  deriving DecidableEq, Repr

/-- One turn of the agenda, the inputs still to come (log 1). Together the turns fix one of the total orders
that 20_memory.md R54 allows. -/
inductive Turn where
  /-- The host presents a transaction. -/
  | host (t : HostTxn)
  /-- The unit takes its `Complete` step, if a command is in flight. -/
  | unit
  /-- rst_n is pulsed (70_reset_and_hazards.md R201, R202). -/
  | reset
  deriving DecidableEq, Repr

/-- A reason for which the machine would stop. There is none: the unit has no traps (60_exceptions.md R170), its
faults are next states (R173), its decoder is total (30_encoding.md R74) and `Complete` is never blocked (R171).
Safe: no behaviour of the unit is cut off. Log 10. -/
inductive Fault where
  deriving DecidableEq, Repr

/-- A reason for which the model would not run an instruction. -/
inductive Refusal where
  /-- An instruction with no meaning yet, raised by an arm of `exec` only. No arm raises it. Safe. -/
  | notModelled (mnemonic : String)
  deriving DecidableEq, Repr

/-- The state: what the spec gives the unit (10_state.md R10), the parameters of the machine, and the model's
own record of the host's side. -/
structure State where
  /-- The open parameters (00_scope.md R2 to R4; log 3). No step writes them. -/
  cfg : Config
  /-- SLOT[0..NSLOTS-1]: a listed slot is present, an unlisted one is nil (10_state.md R11). -/
  slots : Memory Bytes32
  /-- ACC (R14). -/
  acc : Option Bytes32
  /-- POS (R18). -/
  pos : Word
  /-- MLEN (R19). -/
  mlen : Word
  /-- MSG: the bytes written since reset (R10; log 6). -/
  msg : Memory Byte
  /-- CTRL.IE_DONE (R20). -/
  ieDone : Bool
  /-- CTRL.IE_ERR (R20). -/
  ieErr : Bool
  /-- STATUS.DONE (R22). -/
  done : Bool
  /-- STATUS.ERR (R21, 60_exceptions.md R176). -/
  err : Bool
  /-- STATUS.ECODE (R25). -/
  ecode : BitVec 4
  /-- STATUS.CMPR (R24). -/
  cmpr : BitVec 2
  /-- ECMD (R26). -/
  ecmd : Word
  /-- EIDX (R27). -/
  eidx : Word
  /-- RIDX (R28). -/
  ridx : BitVec 14
  /-- INFLIGHT (R31). -/
  inflight : Option Word
  /-- The MODEL's own: how many resets there have been since `State.reset` (log 5). -/
  resets : Nat
  /-- The MODEL's own: the turns still to come (log 1). -/
  agenda : List Turn
  /-- The MODEL's own: the transaction presented and held (20_memory.md R53; log 1). -/
  held : Option HostTxn
  /-- The MODEL's own: the transactions performed, with their responses, newest first (log 1). -/
  log : List (HostTxn × HostResp)
  deriving DecidableEq, Repr

/-- The state right after reset number `k` of a machine with parameters `c` (10_state.md R33). -/
def State.afterReset (c : Config) (k : Nat) : State :=
  { cfg := c
    slots := []
    acc := none
    pos := 0
    mlen := 0
    msg := []
    ieDone := false
    ieErr := false
    done := false
    err := false
    ecode := 0
    cmpr := 0b10
    ecmd := 0
    eidx := 0
    ridx := 0
    inflight := none
    resets := k
    agenda := []
    held := none
    log := [] }

/-- The machine right after reset (R33), with the reference parameters (log 3) and nothing presented by the
host yet (log 2). -/
def State.reset : State :=
  State.afterReset Config.reference 0

end Sys2Proof.Machine
end

