-- ==== Sys2Proof/Machine/Ops.lean ====
section
/-! DEFINITION. The named operations over memories and registers, the entry of a fault and the return from it. -/

namespace Sys2Proof.Machine

/-! ### Memories -/

/-- What a memory holds at an index. -/
def Memory.read {β : Type} : Memory β → Nat → Option β
  | [], _ => none
  | (k, v) :: m, a => if k = a then some v else Memory.read m a

/-- Hold a value at an index, keeping the indices rising. -/
def Memory.write {β : Type} (a : Nat) (v : β) : Memory β → Memory β
  | [] => [(a, v)]
  | (k, u) :: m =>
    if a < k then (a, v) :: (k, u) :: m
    else if a = k then (a, v) :: m
    else (k, u) :: Memory.write a v m

/-- Hold no value at the indices `a` to `a + n - 1`. -/
def Memory.clear {β : Type} (a n : Nat) (m : Memory β) : Memory β :=
  m.filter (fun c => decide (c.1 < a ∨ a + n ≤ c.1))

/-- Write a whole Option value: a present one is held, nil removes the entry. -/
def Memory.put {β : Type} (a : Nat) : Option β → Memory β → Memory β
  | some v, m => Memory.write a v m
  | none, m => Memory.clear a 1 m

/-! ### Registers, one update each -/

/-- SLOT[k], a whole Option value (20_memory.md R47). -/
def State.slot (s : State) (k : Nat) : Option Bytes32 :=
  Memory.read s.slots k

def State.setSlots (s : State) (m : Memory Bytes32) : State := { s with slots := m }
def State.setAcc (s : State) (v : Option Bytes32) : State := { s with acc := v }
def State.setPos (s : State) (v : Word) : State := { s with pos := v }
def State.setMlen (s : State) (v : Word) : State := { s with mlen := v }
def State.setMsg (s : State) (m : Memory Byte) : State := { s with msg := m }
def State.setCmpr (s : State) (v : BitVec 2) : State := { s with cmpr := v }
def State.setRidx (s : State) (v : BitVec 14) : State := { s with ridx := v }
def State.setDone (s : State) (b : Bool) : State := { s with done := b }

/-- A write of CTRL: bit 0 is IE_DONE, bit 1 is IE_ERR, the rest is ignored (10_state.md R20). -/
def State.setCtrl (s : State) (v : Word) : State :=
  { s with ieDone := v.getLsbD 0, ieErr := v.getLsbD 1 }

def State.setInflight (s : State) (w : Option Word) : State := { s with inflight := w }
def State.setAgenda (s : State) (l : List Turn) : State := { s with agenda := l }
def State.setHeld (s : State) (t : Option HostTxn) : State := { s with held := t }

/-- Note the response to a performed transaction. -/
def State.record (s : State) (t : HostTxn) (r : HostResp) : State :=
  { s with log := (t, r) :: s.log }

/-! ### Faults -/

/-- The three faults of the unit (60_exceptions.md R172), with the information of E_NIL (R175). -/
inductive FaultCause where
  /-- E_ILLCMD. -/
  | illCmd
  /-- E_RANGE. -/
  | range
  /-- E_NIL, the nil operand named by its slot index or by 0xFFFFFFFF for ACC. -/
  | nil (idx : Word)
  deriving DecidableEq, Repr

/-- The code of a fault (R172). -/
def FaultCause.code : FaultCause → BitVec 4
  | .illCmd => 1
  | .range => 2
  | .nil _ => 3

/-- The EIDX value of a fault (R175). -/
def FaultCause.info : FaultCause → Word
  | .illCmd => 0
  | .range => 0
  | .nil idx => idx

/-- E_NIL of a nil ACC (R175). -/
def nilAcc : FaultCause :=
  .nil 0xFFFFFFFF

/-- E_NIL of a nil slot (R175). -/
def nilSlot (k : Nat) : FaultCause :=
  .nil (BitVec.ofNat 32 k)

/-- FAULT ENTRY (60_exceptions.md R171, R173): the record of the fault of command word `w`. DONE and INFLIGHT, which
change alike for every completion, are written by `State.complete`. -/
def State.takeFault (s : State) (c : FaultCause) (w : Word) : State :=
  { s with err := true, ecode := c.code, ecmd := w, eidx := c.info }

/-- A command that raises a fault: the fault's record and no other change (R173). The word recorded is the
command's own encoding, which is the word in flight, because the decoder is strict (log 9). -/
def State.raise (s : State) (c : FaultCause) (i : Instr) : Host.Outcome State Fault Refusal :=
  .next (s.takeFault c (encode i))

/-- RETURN FROM A FAULT (60_exceptions.md R177): ERR and ECODE are cleared, ECMD and EIDX keep their values. -/
def State.acknowledge (s : State) : State :=
  { s with err := false, ecode := 0 }

/-! ### Commands and reset -/

/-- ISSUE (20_memory.md R58): the word goes into INFLIGHT and DONE is cleared; it is not checked here. -/
def State.issue (s : State) (w : Word) : State :=
  { s with inflight := some w, done := false }

/-- RESET (70_reset_and_hazards.md R201, R202): the reset state; a command in flight is abandoned and a held
transaction is not performed. The parameters stay, the MSG bytes are drawn anew (10_state.md R33; log 5), and
the turns to come and the responses given are not the unit's to change. -/
def State.hardReset (s : State) : State :=
  { State.afterReset s.cfg (s.resets + 1) with agenda := s.agenda, log := s.log }

end Sys2Proof.Machine
end

