-- ==== Sys2Proof/Machine/Operands.lean ====
section
/-! DEFINITION. The operand forms: words of a HashID, ranges of slots, bytes and words of the message buffer. -/

namespace Sys2Proof.Machine

/-! ### Words of a HashID (20_memory.md R44) -/

/-- `h` with stored byte `i` replaced. -/
def setByte (h : Bytes32) (i : Nat) (b : Byte) : Bytes32 :=
  ⟨h.bytes.set i b, by rw [List.length_set, h.size]⟩

/-- `word(h, j)`: stored bytes 4j to 4j+3, byte 4j in bits 31:24 (R44). -/
def hashWord (h : Bytes32) (j : Nat) : Word :=
  h.byte (4 * j) ++ h.byte (4 * j + 1) ++ h.byte (4 * j + 2) ++ h.byte (4 * j + 3)

/-- Byte `i` of a word, byte 0 in bits 31:24 (R44). -/
def wordByte (v : Word) (i : Nat) : Byte :=
  v.extractLsb' (24 - 8 * i) 8

/-- `setword(h, j, v)` (R44). -/
def setHashWord (h : Bytes32) (j : Nat) (v : Word) : Bytes32 :=
  setByte (setByte (setByte (setByte h (4 * j) (wordByte v 0)) (4 * j + 1) (wordByte v 1))
    (4 * j + 2) (wordByte v 2)) (4 * j + 3) (wordByte v 3)

/-! ### Slots (30_encoding.md R72, 41_hashid_moves_compare.md R119) -/

/-- The slots `a` to `a + n - 1`, lowest first, when all are present; else the index of the lowest nil one
(60_exceptions.md R175). -/
def presentRange (m : Memory Bytes32) (a : Nat) : Nat → Except Nat (List Bytes32)
  | 0 => .ok []
  | n + 1 =>
    match Memory.read m a with
    | none => .error a
    | some h =>
      match presentRange m (a + 1) n with
      | .error k => .error k
      | .ok hs => .ok (h :: hs)

/-! ### The message buffer -/

/-- MSG[a]: the byte last written, or the free value that reset left there (10_state.md R33; log 5, log 6). -/
def State.msgByte (s : State) (a : Nat) : Byte :=
  match Memory.read s.msg a with
  | some b => b
  | none => Config.msgAtReset s.resets a

/-- `MemRead(0, n)`: the bytes MSG[0] to MSG[n-1] (00_scope.md section 5). -/
def State.message (s : State) (n : Nat) : List Byte :=
  (List.range n).map s.msgByte

/-- Message word `k` (20_memory.md R48). -/
def State.msgWord (s : State) (k : Nat) : Word :=
  s.msgByte (4 * k) ++ s.msgByte (4 * k + 1) ++ s.msgByte (4 * k + 2) ++ s.msgByte (4 * k + 3)

/-- `MemWrite(4k, 4, v)`: all four bytes of message word `k` (20_memory.md R49). -/
def State.writeMsgWord (s : State) (k : Nat) (v : Word) : State :=
  s.setMsg
    (Memory.write (4 * k + 3) (wordByte v 3)
      (Memory.write (4 * k + 2) (wordByte v 2)
        (Memory.write (4 * k + 1) (wordByte v 1)
          (Memory.write (4 * k) (wordByte v 0) s.msg))))

/-! ### The accumulator words (20_memory.md R45, R46) -/

/-- What a read of ACCj answers: 0 while ACC is nil (R45). -/
def State.accWord (s : State) (j : Nat) : Word :=
  match s.acc with
  | some h => hashWord h j
  | none => 0

/-- A write of ACCj, which makes ACC present, over zero bytes if it was nil (R46). -/
def State.writeAccWord (s : State) (j : Nat) (v : Word) : State :=
  s.setAcc (some (setHashWord (s.acc.getD Bytes32.zero) j v))

end Sys2Proof.Machine
end

