-- ==== Sys2Proof/Machine/Sha256.lean ====
section
/-! DEFINITION. The hash functions: the standard SHA-256 (40_hash256.md R95 to R98), the parameter SHA256
(00_scope.md R4), hash256 and hashBranch (40_hash256.md R91, R93). -/

namespace Sys2Proof.Machine

/-- `n` as `k` bytes, big-endian. -/
def bytesBE : Nat → Nat → List Byte
  | 0, _ => []
  | k + 1, n => BitVec.ofNat 8 (n / 256 ^ k) :: bytesBE k n

/-- How many zero bytes pad a message of `l` bytes: the least number that fills the last block (R95). -/
def padZeros (l : Nat) : Nat :=
  (119 - l % 64) % 64

/-- The padded message (R95). -/
def shaPad (m : List Byte) : List Byte :=
  m ++ 0x80#8 :: (List.replicate (padZeros m.length) 0#8 ++ bytesBE 8 (8 * m.length))

/-- How many 64-byte blocks the padded message has (R95). -/
def shaBlocks (l : Nat) : Nat :=
  (l + 8) / 64 + 1

/-- Rotation right of a 32-bit word (section 2 of 40_hash256.md). -/
def rotr (x : Word) (n : Nat) : Word :=
  (x >>> n) ||| (x <<< (32 - n))

def smallSigma0 (x : Word) : Word := rotr x 7 ^^^ rotr x 18 ^^^ (x >>> 3)
def smallSigma1 (x : Word) : Word := rotr x 17 ^^^ rotr x 19 ^^^ (x >>> 10)
def bigSigma0 (x : Word) : Word := rotr x 2 ^^^ rotr x 13 ^^^ rotr x 22
def bigSigma1 (x : Word) : Word := rotr x 6 ^^^ rotr x 11 ^^^ rotr x 25
def shaCh (x y z : Word) : Word := (x &&& y) ^^^ (~~~x &&& z)
def shaMaj (x y z : Word) : Word := (x &&& y) ^^^ (x &&& z) ^^^ (y &&& z)

/-- The eight chaining words, `H[0]` to `H[7]`, or the eight working variables `a` to `h` (R97). -/
structure Chain where
  a : Word
  b : Word
  c : Word
  d : Word
  e : Word
  f : Word
  g : Word
  h : Word
  deriving DecidableEq, Repr

/-- The initial chaining value H0 (R96). -/
def shaInit : Chain :=
  { a := 0x6a09e667, b := 0xbb67ae85, c := 0x3c6ef372, d := 0xa54ff53a
    e := 0x510e527f, f := 0x9b05688c, g := 0x1f83d9ab, h := 0x5be0cd19 }

/-- The round constants K[0] to K[63], row by row (R96). -/
def shaK : List Word :=
  [0x428a2f98, 0x71374491, 0xb5c0fbcf, 0xe9b5dba5, 0x3956c25b, 0x59f111f1, 0x923f82a4, 0xab1c5ed5] ++
  [0xd807aa98, 0x12835b01, 0x243185be, 0x550c7dc3, 0x72be5d74, 0x80deb1fe, 0x9bdc06a7, 0xc19bf174] ++
  [0xe49b69c1, 0xefbe4786, 0x0fc19dc6, 0x240ca1cc, 0x2de92c6f, 0x4a7484aa, 0x5cb0a9dc, 0x76f988da] ++
  [0x983e5152, 0xa831c66d, 0xb00327c8, 0xbf597fc7, 0xc6e00bf3, 0xd5a79147, 0x06ca6351, 0x14292967] ++
  [0x27b70a85, 0x2e1b2138, 0x4d2c6dfc, 0x53380d13, 0x650a7354, 0x766a0abb, 0x81c2c92e, 0x92722c85] ++
  [0xa2bfe8a1, 0xa81a664b, 0xc24b8b70, 0xc76c51a3, 0xd192e819, 0xd6990624, 0xf40e3585, 0x106aa070] ++
  [0x19a4c116, 0x1e376c08, 0x2748774c, 0x34b0bcb5, 0x391c0cb3, 0x4ed8aa4a, 0x5b9cca4f, 0x682e6ff3] ++
  [0x748f82ee, 0x78a5636f, 0x84c87814, 0x8cc70208, 0x90befffa, 0xa4506ceb, 0xbef9a3f7, 0xc67178f2]

/-- The big-endian 32-bit words of a byte sequence: W[0] to W[15] of a block (R97). -/
def wordsBE : List Byte → List Word
  | b0 :: b1 :: b2 :: b3 :: bs => (b0 ++ b1 ++ b2 ++ b3 : Word) :: wordsBE bs
  | _ => []

/-- `n` further words of the message schedule, onto a list that holds the newest word first (R97). -/
def shaSchedule : Nat → List Word → List Word
  | 0, ws => ws
  | n + 1, ws =>
    shaSchedule n
      ((smallSigma1 (ws.getD 1 0) + ws.getD 6 0 + smallSigma0 (ws.getD 14 0) + ws.getD 15 0) :: ws)

/-- One round, with its constant `k` and its schedule word `w` (R97). -/
def shaRound (v : Chain) (k w : Word) : Chain :=
  let t1 := v.h + bigSigma1 v.e + shaCh v.e v.f v.g + k + w
  let t2 := bigSigma0 v.a + shaMaj v.a v.b v.c
  { a := t1 + t2, b := v.a, c := v.b, d := v.c, e := v.d + t1, f := v.e, g := v.f, h := v.g }

/-- The rounds in order, one constant and one schedule word each (R97). -/
def shaRounds (v : Chain) : List Word → List Word → Chain
  | k :: ks, w :: ws => shaRounds (shaRound v k w) ks ws
  | _, _ => v

/-- Word by word addition modulo 2^32 (R97). -/
def Chain.add (x y : Chain) : Chain :=
  { a := x.a + y.a, b := x.b + y.b, c := x.c + y.c, d := x.d + y.d
    e := x.e + y.e, f := x.f + y.f, g := x.g + y.g, h := x.h + y.h }

/-- Compression of one 64-byte block into the chaining value (R97). -/
def shaCompress (v : Chain) (block : List Byte) : Chain :=
  v.add (shaRounds v shaK (shaSchedule 48 (wordsBE block).reverse).reverse)

/-- Compression of `n` blocks, first block first (R98). -/
def shaChain (v : Chain) : Nat → List Byte → Chain
  | 0, _ => v
  | n + 1, m => shaChain (shaCompress v (m.take 64)) n (m.drop 64)

/-- `H[0]` big-endian, then `H[1]`, ..., then `H[7]` (R98). -/
def Chain.bytes (v : Chain) : List Byte :=
  bytesBE 4 v.a.toNat ++ bytesBE 4 v.b.toNat ++ bytesBE 4 v.c.toNat ++ bytesBE 4 v.d.toNat ++
  bytesBE 4 v.e.toNat ++ bytesBE 4 v.f.toNat ++ bytesBE 4 v.g.toNat ++ bytesBE 4 v.h.toNat

/-- The standard SHA-256 function (R98). -/
def sha256Standard (m : List Byte) : Bytes32 :=
  ⟨(shaChain shaInit (shaBlocks m.length) (shaPad m)).bytes, rfl⟩

/-- The parameter SHA256 of a machine (00_scope.md R4): the reference instantiation, or a function of which
nothing is known but the contract (log 4). -/
def sha256 (c : Config) (m : List Byte) : Bytes32 :=
  match c.hash with
  | .reference => sha256Standard m
  | .other k => ⟨(List.range 32).map (Config.otherSha256 k m), by simp⟩

/-- hash256, D0's DoubleHash (40_hash256.md R91). -/
def hash256 (c : Config) (m : List Byte) : Bytes32 :=
  sha256 c (sha256 c m).bytes

/-- hashBranch: the stored bytes of the left value, then those of the right (40_hash256.md R93). -/
def hashBranch (c : Config) (l r : Bytes32) : Bytes32 :=
  hash256 c (l.bytes ++ r.bytes)

end Sys2Proof.Machine
end

