-- ==== Sys2Proof/Machine/Build.lean ====
section
/-! DEFINITION. BUILD (43_build.md). -/

namespace Sys2Proof.Machine

/-- `nextpow2(n)`: the least power of two that is at least `n`, and 1 when `n` is 0 or 1 (R141). -/
def nextPow2 (n : Nat) : Nat :=
  if n ≤ 1 then 1 else 2 ^ (Nat.log2 (n - 1) + 1)

/-- The parent of a pair of nodes (R146): nil if the left one is nil, the left one paired with itself if only
the right one is nil. -/
def parentNode (c : Config) : Option Bytes32 → Option Bytes32 → Option Bytes32
  | none, _ => none
  | some l, none => some (hashBranch c l l)
  | some l, some r => some (hashBranch c l r)

/-- `k` pairs of the pass over the store at `b` of padded leaf count `p`, from pair `j` (R146): pair `j` is the
relative slots 2j and 2j+1, read at that moment, and its parent is relative slot p + j. -/
def buildPass (c : Config) (b p : Nat) : Nat → Nat → Memory Bytes32 → Memory Bytes32
  | 0, _, m => m
  | k + 1, j, m =>
    buildPass c b p k (j + 1)
      (Memory.put (b + p + j)
        (parentNode c (Memory.read m (b + 2 * j)) (Memory.read m (b + 2 * j + 1))) m)

/-- The slots after the padding (R145) and the whole pass of p - 1 pairs (R146). -/
def buildStore (c : Config) (b n : Nat) (m : Memory Bytes32) : Memory Bytes32 :=
  buildPass c b (nextPow2 n) (nextPow2 n - 1) 0 (Memory.clear (b + n) (nextPow2 n - n) m)

/-- The slot index of the root of the store (R142, R147). -/
def rootIndex (b n : Nat) : Nat :=
  b + 2 * nextPow2 n - 2

/-- The results of BUILD (R147): the store, RIDX and ACC. -/
def State.buildResult (st : State) (b n : Nat) : State :=
  let m := buildStore st.cfg b n st.slots
  ((st.setSlots m).setRidx (BitVec.ofNat 14 (rootIndex b n))).setAcc (Memory.read m (rootIndex b n))

/-- BUILD b, n (R140), with the range check of R143 and the nil-leaf check of R144. -/
def execBuild (b n : Nat) (st : State) : Host.Outcome State Fault Refusal :=
  if b + 2 * nextPow2 n - 1 > st.cfg.nslots then st.raise .range (.build b n)
  else
    match presentRange st.slots b n with
    | .error k => st.raise (nilSlot k) (.build b n)
    | .ok _ => .next (st.buildResult b n)

end Sys2Proof.Machine
end

