-- ==== Sys2Proof/Machine/Fold.lean ====
section
/-! DEFINITION. FOLD (44_fold_verify.md). -/

namespace Sys2Proof.Machine

/-- One level of a fold (R161): bit 1 means that the proof element is the left sibling. -/
def foldStep (c : Config) (bit : Bool) (h e : Bytes32) : Bytes32 :=
  if bit then hashBranch c e h else hashBranch c h e

/-- The fold of `h` through proof elements, the first of which is element `i` of the command (R160, R161). -/
def foldProof (c : Config) (pos : Word) : Nat → List Bytes32 → Bytes32 → Bytes32
  | _, [], h => h
  | i, e :: es, h => foldProof c pos (i + 1) es (foldStep c (pos.getLsbD i) h e)

/-- FOLD s, n (R160). With n = 0 ACC stays as it was, nil included. -/
def execFold (s n : Nat) (st : State) : Host.Outcome State Fault Refusal :=
  if n > 32 ∨ s + n > st.cfg.nslots then st.raise .range (.fold s n)
  else
    match st.acc with
    | none => if n ≥ 1 then st.raise nilAcc (.fold s n) else .next st
    | some h =>
      match presentRange st.slots s n with
      | .error k => st.raise (nilSlot k) (.fold s n)
      | .ok es => .next (st.setAcc (some (foldProof st.cfg st.pos 0 es h)))

end Sys2Proof.Machine
end

