-- ==== Sys2Proof/Machine/Hashing.lean ====
section
/-! DEFINITION. DHASH (40_hash256.md), HBR and HBL (42_hashbranch.md). -/

namespace Sys2Proof.Machine

/-- DHASH (R99): MLEN is compared unsigned; ACC is not an input. -/
def execDhash (st : State) : Host.Outcome State Fault Refusal :=
  if st.mlen.toNat > st.cfg.msgBytes then st.raise .range .dhash
  else .next (st.setAcc (some (hash256 st.cfg (st.message st.mlen.toNat))))

/-- The common part of HBR and HBL (42_hashbranch.md R132): the checks, in order, then the given combination of
ACC and the slot. -/
def branchHash (i : Instr) (s : Nat) (combine : Bytes32 → Bytes32 → Bytes32) (st : State) :
    Host.Outcome State Fault Refusal :=
  if s ≥ st.cfg.nslots then st.raise .range i
  else
    match st.acc with
    | none => st.raise nilAcc i
    | some h =>
      match st.slot s with
      | none => st.raise (nilSlot s) i
      | some e => .next (st.setAcc (some (combine h e)))

/-- HBR s (R130): the slot is the right child. -/
def execHbr (s : Nat) (st : State) : Host.Outcome State Fault Refusal :=
  branchHash (.hbr s) s (fun h e => hashBranch st.cfg h e) st

/-- HBL s (R131): the slot is the left child. -/
def execHbl (s : Nat) (st : State) : Host.Outcome State Fault Refusal :=
  branchHash (.hbl s) s (fun h e => hashBranch st.cfg e h) st

end Sys2Proof.Machine
end

