-- ==== Sys2Proof/Machine/Flags.lean ====
section
/-! DEFINITION. The flags and the register words made of them, the order of HashIDs, and the irq output. -/

namespace Sys2Proof.Machine

/-! ### STATUS, CTRL, CAP, irq -/

/-- BUSY: a command is in flight (10_state.md R21, R31). -/
def State.busy (s : State) : Bool :=
  s.inflight.isSome

/-- ACCV: ACC is present (R23). -/
def State.accv (s : State) : Bool :=
  s.acc.isSome

/-- The STATUS word (R21): bits 31:12 and 7:6 read 0, ECODE 11:8, CMPR 5:4, ACCV 3, ERR 2, DONE 1, BUSY 0. -/
def State.statusWord (s : State) : Word :=
  BitVec.ofNat 32
    (s.busy.toNat + 2 * s.done.toNat + 4 * s.err.toNat + 8 * s.accv.toNat + 16 * s.cmpr.toNat
      + 256 * s.ecode.toNat)

/-- The CTRL word (R20, 20_memory.md R59). -/
def State.ctrlWord (s : State) : Word :=
  BitVec.ofNat 32 (s.ieDone.toNat + 2 * s.ieErr.toNat)

/-- A write of STATUS (R21): bit 1 clears DONE, bit 2 acknowledges a fault, every other bit is ignored. -/
def State.writeStatus (s : State) (v : Word) : State :=
  let s1 := if v.getLsbD 1 then s.setDone false else s
  if v.getLsbD 2 then s1.acknowledge else s1

/-- The ID word (R29). -/
def idWord : Word :=
  0x48323536

/-- The CAP word: SLOT_AW in bits 3:0, MSGBYTES in bits 31:16 (R30, 20_memory.md R59). -/
def capWord (c : Config) : Word :=
  BitVec.ofNat 32 (c.slotAw + c.msgBytes * 2 ^ 16)

/-- The irq output, a function of the state alone (R32, 60_exceptions.md R179). -/
def State.irq (s : State) : Bool :=
  (s.done && s.ieDone) || (s.err && s.ieErr)

/-! ### The order of HashIDs (41_hashid_moves_compare.md R117) -/

/-- A byte sequence read as an unsigned little-endian integer. -/
def bytesLE : List Byte → Nat
  | [] => 0
  | b :: bs => b.toNat + 256 * bytesLE bs

/-- `LE256(h)`: stored byte 31 is the most significant (R117). -/
def le256 (h : Bytes32) : Nat :=
  bytesLE h.bytes

/-- `compare(a, b)`: nil below every present value, present values by LE256 (R117). -/
def compareHash : Option Bytes32 → Option Bytes32 → Int
  | none, none => 0
  | none, some _ => -1
  | some _, none => 1
  | some x, some y => if le256 x < le256 y then -1 else if le256 x = le256 y then 0 else 1

/-- CMPR of a comparison (41 R115): 0b11 for -1, 0b00 for 0, 0b01 for +1. -/
def cmprBits (c : Int) : BitVec 2 :=
  if c = -1 then 0b11 else if c = 0 then 0b00 else 0b01

end Sys2Proof.Machine
end

