-- ==== Sys2Proof/Machine/Moves.lean ====
section
/-! DEFINITION. NOP, LDA, STA, CLRA, CLRS and CMP (41_hashid_moves_compare.md). A meaning starts at check 3 of
30_encoding.md R74: the reserved fields were checked by the decoder. -/

namespace Sys2Proof.Machine

/-- NOP (R110). -/
def execNop (st : State) : Host.Outcome State Fault Refusal :=
  .next st

/-- LDA s (R111): the whole Option value, nil stays nil. -/
def execLda (s : Nat) (st : State) : Host.Outcome State Fault Refusal :=
  if s ≥ st.cfg.nslots then st.raise .range (.lda s)
  else .next (st.setAcc (st.slot s))

/-- STA s (R112): the whole Option value, a nil ACC makes the slot nil. -/
def execSta (s : Nat) (st : State) : Host.Outcome State Fault Refusal :=
  if s ≥ st.cfg.nslots then st.raise .range (.sta s)
  else .next (st.setSlots (Memory.put s st.acc st.slots))

/-- CLRA (R113). -/
def execClra (st : State) : Host.Outcome State Fault Refusal :=
  .next (st.setAcc none)

/-- CLRS s, n (R114). -/
def execClrs (s n : Nat) (st : State) : Host.Outcome State Fault Refusal :=
  if s + n > st.cfg.nslots then st.raise .range (.clrs s n)
  else .next (st.setSlots (Memory.clear s n st.slots))

/-- CMP s (R115): ACC is the receiver, the slot is the other. -/
def execCmp (s : Nat) (st : State) : Host.Outcome State Fault Refusal :=
  if s ≥ st.cfg.nslots then st.raise .range (.cmp s)
  else .next (st.setCmpr (cmprBits (compareHash st.acc (st.slot s))))

end Sys2Proof.Machine
end

