-- ==== Sys2Proof/Machine/Dispatch.lean ====
section
/-! DEFINITION. `Exec(w)` for a decoded command (30_encoding.md R74): one arm per constructor. -/

namespace Sys2Proof.Machine

def exec (i : Instr) (s : State) : Host.Outcome State Fault Refusal :=
  match i with
  | .nop => Sys2Proof.Machine.execNop s
  | .lda a => Sys2Proof.Machine.execLda a s
  | .sta a => Sys2Proof.Machine.execSta a s
  | .clrs a n => Sys2Proof.Machine.execClrs a n s
  | .clra => Sys2Proof.Machine.execClra s
  | .hbr a => Sys2Proof.Machine.execHbr a s
  | .hbl a => Sys2Proof.Machine.execHbl a s
  | .fold a n => Sys2Proof.Machine.execFold a n s
  | .build b n => Sys2Proof.Machine.execBuild b n s
  | .cmp a => Sys2Proof.Machine.execCmp a s
  | .dhash => Sys2Proof.Machine.execDhash s

end Sys2Proof.Machine
end

