-- ==== Sys2Proof/Machine/HostPort.lean ====
section
/-! DEFINITION. The host port: the register map (10_state.md section 6) and the two transactions
(20_memory.md R41 to R49, R53, R57 to R59). -/

namespace Sys2Proof.Machine

/-- The registers of the map (10_state.md section 6). -/
inductive HostReg where
  | id
  | cap
  | ctrl
  | status
  | cmd
  | pos
  | mlen
  | ridx
  | ecmd
  | eidx
  /-- ACCj. -/
  | acc (j : Nat)
  /-- Message word `k`. -/
  | msg (k : Nat)
  deriving DecidableEq, Repr

/-- The register at a byte offset; none where the map has no register, or the offset is no multiple of 4
(20_memory.md R42, 92_eei_decisions.md D26; log 8). -/
def regAt (c : Config) (off : Nat) : Option HostReg :=
  if off % 4 ≠ 0 then none
  else if 0x040 ≤ off ∧ off < 0x060 then some (.acc ((off - 0x040) / 4))
  else if 0x100 ≤ off then
    if (off - 0x100) / 4 < c.msgBytes / 4 then some (.msg ((off - 0x100) / 4)) else none
  else
    match off with
    | 0x000 => some .id
    | 0x004 => some .cap
    | 0x008 => some .ctrl
    | 0x00C => some .status
    | 0x010 => some .cmd
    | 0x014 => some .pos
    | 0x018 => some .mlen
    | 0x01C => some .ridx
    | 0x020 => some .ecmd
    | 0x024 => some .eidx
    | _ => none

/-- What a read of a register answers (20_memory.md R59, R45, R48). CMD is write-only and reads 0 (R43). -/
def State.readReg (s : State) : HostReg → Word
  | .id => idWord
  | .cap => capWord s.cfg
  | .ctrl => s.ctrlWord
  | .status => s.statusWord
  | .cmd => 0
  | .pos => s.pos
  | .mlen => s.mlen
  | .ridx => s.ridx.setWidth 32
  | .ecmd => s.ecmd
  | .eidx => s.eidx
  | .acc j => s.accWord j
  | .msg k => s.msgWord k

/-- What a write of a register does (20_memory.md R57, R58, R46, R49). Read-only registers keep their value
(R43). -/
def State.writeReg (s : State) (v : Word) : HostReg → State
  | .id => s
  | .cap => s
  | .ctrl => s.setCtrl v
  | .status => s.writeStatus v
  | .cmd => s.issue v
  | .pos => s.setPos v
  | .mlen => s.setMlen v
  | .ridx => s
  | .ecmd => s
  | .eidx => s
  | .acc j => s.writeAccWord j v
  | .msg k => s.writeMsgWord k v

/-- The response to a transaction (R42, R57, R59). -/
def State.respond (s : State) : HostTxn → HostResp
  | .read off =>
    match regAt s.cfg off with
    | none => .err
    | some r => .value (s.readReg r)
  | .write off _ =>
    match regAt s.cfg off with
    | none => .err
    | some _ => .ok

/-- The state after a transaction. A read changes nothing (R43), and neither does one that answers err (R41). -/
def State.effect (s : State) : HostTxn → State
  | .read _ => s
  | .write off v =>
    match regAt s.cfg off with
    | none => s
    | some r => s.writeReg v r

/-- Perform a transaction: its effect, and its response noted. -/
def State.perform (s : State) (t : HostTxn) : State :=
  (s.effect t).record t (s.respond t)

/-- The read of STATUS, the one transaction that is performed while a command is in flight (R53). -/
def statusRead : HostTxn :=
  .read 0x00C

/-- The transaction is performed now; otherwise it is held (R53). -/
def State.performs (s : State) (t : HostTxn) : Bool :=
  !s.busy || decide (t = statusRead)

end Sys2Proof.Machine
end

