-- ==== Sys2Proof/Machine/Agents.lean ====
section
/-! DEFINITION. The agents: the unit's `Complete` step (60_exceptions.md R171), the host's turn (20_memory.md R53),
reset, and who moves next (log 1, log 7). -/

namespace Sys2Proof.Machine

/-- The end of every completion: DONE is set (60_exceptions.md R171, 10_state.md R22). -/
def retire (o : Host.Outcome State Fault Refusal) : Host.Outcome State Fault Refusal :=
  match o with
  | .next s => .next (s.setDone true)
  | .fault r => .fault r
  | .refused r => .refused r

/-- `Exec(w)` (30_encoding.md R74): a word that is no command raises E_ILLCMD, any other is executed. -/
def execWord (w : Word) (s : State) : Host.Outcome State Fault Refusal :=
  match decode w with
  | .error _ => .next (s.takeFault .illCmd w)
  | .ok i => exec i s

/-- The `Complete` step (R171): the command in flight is dropped while ERR = 1 (R176), executed otherwise. Not
enabled, and so no change, when none is in flight. -/
def State.complete (s : State) : Host.Outcome State Fault Refusal :=
  match s.inflight with
  | none => .next s
  | some w =>
    retire
      (if s.err then .next (s.setInflight none) else execWord w (s.setInflight none))

/-- What happens when nothing is presented: a held transaction is performed once it can be, a command in flight
completes (70_reset_and_hazards.md R206), an idle unit does nothing (60_exceptions.md R188). -/
def State.proceed (s : State) : Host.Outcome State Fault Refusal :=
  if s.busy then s.complete
  else
    match s.held with
    | some t => .next ((s.setHeld none).perform t)
    | none => .next s

/-- The host presents a transaction while none is held: performed at once, or held (20_memory.md R53). -/
def State.present (s : State) (t : HostTxn) : State :=
  if s.performs t then s.perform t else s.setHeld (some t)

/-- One step. A host turn waits, with everything behind it, until the transaction presented before it has been
performed (20_memory.md R41). -/
def State.turn (s : State) : Host.Outcome State Fault Refusal :=
  match s.agenda with
  | [] => s.proceed
  | .reset :: l => .next ((s.setAgenda l).hardReset)
  | .unit :: l => (s.setAgenda l).complete
  | .host t :: l =>
    match s.held with
    | some _ => s.proceed
    | none => .next ((s.setAgenda l).present t)

/-- The command word is in flight and it is the unit's turn: what a host write of it to CMD (20_memory.md R58)
leaves, with the unit moving next (log 2). -/
def State.fetchNext (s : State) (w : Word) : State :=
  (s.issue w).setAgenda (.unit :: s.agenda)

end Sys2Proof.Machine
end

