-- ==== Sys2Proof/Machine/Step.lean ====
section
/-! DEFINITION. The step, and the placing of a command where the step takes its next one. -/

namespace Sys2Proof.Machine

/-- One step of the machine: the next turn of the agenda, or the unit moving on its own (log 1, log 7). -/
def step (s : State) : Host.Outcome State Fault Refusal :=
  s.turn

/-- The instruction of an opcode-table word placed where the very next step takes it: in INFLIGHT, issued, with
the unit moving next (log 2). -/
def State.withFetchWord (s : State) (nbits w : Nat) : State :=
  s.fetchNext (tableWord nbits w)

end Sys2Proof.Machine
end

