-- ==== Sys2Proof/Machine/HostProcedures.lean ====
section
/-! DEFINITION. What the spec gives as host notation and host procedures over the commands: listings and
pseudo-instructions (30_encoding.md R79, R80), the display form (10_state.md R13), `verifyProof` and proof
extraction (44_fold_verify.md R162, R163). No step calls them. -/

namespace Sys2Proof.Machine

/-- A line of a listing (R79). -/
inductive Line where
  /-- `W off, value`. -/
  | write (off : Nat) (v : Word)
  /-- `R off`. -/
  | read (off : Nat)
  /-- `W ACC, value`: the eight words of the value, left to right. -/
  | accLoad (h : Bytes32)
  /-- A command line, which stands for `W 0x010, word`. -/
  | command (i : Instr)
  deriving DecidableEq, Repr

/-- The transactions that a line stands for (R79). -/
def Line.txns : Line → List HostTxn
  | .write off v => [.write off v]
  | .read off => [.read off]
  | .accLoad h => (List.range 8).map (fun j => .write (0x040 + 4 * j) (hashWord h j))
  | .command i => [.write 0x010 (encode i)]

/-- The pseudo-instructions (R80). -/
inductive Pseudo where
  | hb2 (l r : Nat)
  | verify (leaf proof n root : Nat)
  | root (b n : Nat)
  | put (s : Nat) (h : Bytes32)
  | putnil (s : Nat)
  deriving DecidableEq, Repr

/-- Their expansions (R80). -/
def Pseudo.expand : Pseudo → List Line
  | .hb2 l r => [.command (.lda l), .command (.hbr r)]
  | .verify leaf proof n r => [.command (.lda leaf), .command (.fold proof n), .command (.cmp r)]
  | .root b n => [.command (.build b n)]
  | .put s h => [.accLoad h, .command (.sta s)]
  | .putnil s => [.command (.clrs s 1)]

/-- The turns of a line: its transactions, and after a command line the unit's turn, because the listings let
every command complete before the next line (95_test_vectors.md section 8). -/
def Line.turns (l : Line) : List Turn :=
  match l with
  | .command _ => l.txns.map .host ++ [.unit]
  | _ => l.txns.map .host

/-- The turns of a listing, in order. -/
def listingTurns (ls : List Line) : List Turn :=
  ls.flatMap Line.turns

/-- The digit of a hexadecimal nibble. -/
def hexDigit (n : Nat) : Char :=
  ['0', '1', '2', '3', '4', '5', '6', '7', '8', '9', 'a', 'b', 'c', 'd', 'e', 'f'].getD n '?'

/-- The display form: two digits a byte, high nibble first, stored byte 31 first (10_state.md R13). -/
def displayHex (h : Bytes32) : List Char :=
  h.bytes.reverse.flatMap (fun b => [hexDigit (b.toNat / 16), hexDigit (b.toNat % 16)])

/-- The host's reading of the verdict (44 R162): none while ERR = 1, else whether CMPR is 0b00. -/
def State.verdict (s : State) : Option Bool :=
  if s.err then none else some (decide (s.cmpr = 0b00))

/-- D0's `verifyProof` (44 R162): the folded leaf compares equal to the root. -/
def verifyProof (c : Config) (leaf : Bytes32) (root : Option Bytes32) (proof : List Bytes32) (pos : Word) : Bool :=
  decide (compareHash (some (foldProof c pos 0 proof leaf)) root = 0)

/-- `off(k)`: the relative index of node 0 of level `k` of a store of padded leaf count `p` (43 R142). -/
def levelOffset (p k : Nat) : Nat :=
  if k = 0 then 0 else 2 * p - p / 2 ^ (k - 1)

/-- Proof element `k` of leaf `pos` in the store of `n` leaves at `b` (44 R163): the sibling of the path node,
or the node itself where the sibling is nil. -/
def proofElement (m : Memory Bytes32) (b n pos k : Nat) : Option Bytes32 :=
  let node := pos / 2 ^ k
  let base := b + levelOffset (nextPow2 n) k
  match Memory.read m (base + (node ^^^ 1)) with
  | some e => some e
  | none => Memory.read m (base + node)

/-- Proof extraction (44 R163): one element for each level below the root. -/
def extractProof (m : Memory Bytes32) (b n pos : Nat) : List (Option Bytes32) :=
  (List.range (Nat.log2 (nextPow2 n))).map (proofElement m b n pos)

end Sys2Proof.Machine
end

