-- ==== Sys2Proof/Safety.lean ====
section
/-! DEFINITION. What claims are stated in: the invariant of the unit, and the shape of a faulted state. -/

namespace Sys2Proof.Machine

/-- The invariant that every step keeps: the parameters are in range, both memories are canonical and inside
their bounds, ECODE is a produced code exactly while ERR = 1 (10_state.md R25), DONE is 0 while a command is in
flight (20_memory.md R53), and no STATUS read is ever held (R53). -/
structure State.Inv (s : State) : Prop where
  cfg_wf : s.cfg.wf = true
  slots_wf : Memory.wf s.slots = true
  slots_inside : ∀ k, s.cfg.nslots ≤ k → s.slot k = none
  msg_wf : Memory.wf s.msg = true
  msg_inside : ∀ a, s.cfg.msgBytes ≤ a → Memory.read s.msg a = none
  code_clear : s.err = false → s.ecode = 0
  code_set : s.err = true → s.ecode = 1 ∨ s.ecode = 2 ∨ s.ecode = 3
  busy_not_done : s.busy = true → s.done = false
  held_not_status : s.held ≠ some statusRead

/-- The record of a fault of command word `w` (60_exceptions.md R173): ERR, ECODE, ECMD, EIDX, nothing else. -/
def State.faulted (s : State) (code : BitVec 4) (w idx : Word) : State :=
  { s with err := true, ecode := code, ecmd := w, eidx := idx }

end Sys2Proof.Machine
end

