-- ==== Sys2Proof/Certificates/Slice0/Obligations.lean ====
section
/-! DEFINITION. The statements for the provers, in the order of OBLIGATIONS.json. Each names the rule of spec/ it
formalises. `State.faulted` (Safety.lean) is the record of a fault: ERR, ECODE, ECMD, EIDX and nothing else. -/

open Sys2Proof Sys2Proof.Machine

/-! ### Encoding (30_encoding.md) -/

/-- The decoder reads every well-formed command back from its word (R71 to R74). -/
def Obligations.DecodeOfEncode : Prop :=
  ∀ i : Instr, i.wf = true → decode (encode i) = .ok i

/-- A word that decodes is the word of the command it decodes to: the decoder is strict (R76, R77). -/
def Obligations.EncodeOfDecode : Prop :=
  ∀ (w : Word) (i : Instr), decode w = .ok i → i.wf = true ∧ encode i = w

/-- The opcode map (R73): a word is a command exactly when it matches under the mask; its letters are the
operands; opcodes 0xB to 0xF are reserved. -/
def Obligations.OpcodeMapMatchAndMask : Prop :=
  ∀ (w : Word) (a n : Nat),
    (decode w = .ok .nop ↔ w &&& 0xFFFFFFFF#32 = 0x00000000#32) ∧
    (decode w = .ok (.lda a) ↔ w &&& 0xF0003FFF#32 = 0x10000000#32 ∧ a = (w.extractLsb' 14 14).toNat) ∧
    (decode w = .ok (.sta a) ↔ w &&& 0xF0003FFF#32 = 0x20000000#32 ∧ a = (w.extractLsb' 14 14).toNat) ∧
    (decode w = .ok (.clrs a n) ↔
      w &&& 0xF0000000#32 = 0x30000000#32 ∧ a = (w.extractLsb' 14 14).toNat ∧ n = (w.extractLsb' 0 14).toNat) ∧
    (decode w = .ok .clra ↔ w &&& 0xFFFFFFFF#32 = 0x40000000#32) ∧
    (decode w = .ok (.hbr a) ↔ w &&& 0xF0003FFF#32 = 0x50000000#32 ∧ a = (w.extractLsb' 14 14).toNat) ∧
    (decode w = .ok (.hbl a) ↔ w &&& 0xF0003FFF#32 = 0x60000000#32 ∧ a = (w.extractLsb' 14 14).toNat) ∧
    (decode w = .ok (.fold a n) ↔
      w &&& 0xF0000000#32 = 0x70000000#32 ∧ a = (w.extractLsb' 14 14).toNat ∧ n = (w.extractLsb' 0 14).toNat) ∧
    (decode w = .ok (.build a n) ↔
      w &&& 0xF0000000#32 = 0x80000000#32 ∧ a = (w.extractLsb' 14 14).toNat ∧ n = (w.extractLsb' 0 14).toNat) ∧
    (decode w = .ok (.cmp a) ↔ w &&& 0xF0003FFF#32 = 0x90000000#32 ∧ a = (w.extractLsb' 14 14).toNat) ∧
    (decode w = .ok .dhash ↔ w &&& 0xFFFFFFFF#32 = 0xA0000000#32) ∧
    (decode w = .error .reservedOpcode ↔ 0xB ≤ (w.extractLsb' 28 4).toNat)

/-- The word of a command is OPC·2^28 + A·2^14 + B, and every word is the sum of its fields (R71, R72). -/
def Obligations.CommandWordIsSumOfFields : Prop :=
  (∀ i : Instr, i.wf = true → (encode i).toNat = i.opcode * 2 ^ 28 + i.fieldA * 2 ^ 14 + i.fieldB) ∧
  (∀ w : Word, w.toNat = opcField w * 2 ^ 28 + aField w * 2 ^ 14 + bField w ∧
    opcField w < 16 ∧ aField w ≤ 16383 ∧ bField w ≤ 16383)

/-- A reserved opcode, or a field that must be 0 and is not, raises E_ILLCMD and has no other effect (R75, R76):
what the unit's turn does with such a word in flight. -/
def Obligations.ReservedWordRaisesIllegalCommand : Prop :=
  ∀ (s : State) (w : Word) (l : List Turn),
    s.agenda = .unit :: l → s.inflight = some w → s.err = false →
    (11 ≤ w.toNat / 2 ^ 28 ∨
      (w.toNat / 2 ^ 28 ∈ [0, 4, 10] ∧ w.toNat % 2 ^ 28 ≠ 0) ∨
      (w.toNat / 2 ^ 28 ∈ [1, 2, 5, 6, 9] ∧ w.toNat % 2 ^ 14 ≠ 0)) →
    step s = .next { s with
      agenda := l, inflight := none, done := true, err := true, ecode := 1, ecmd := w, eidx := 0 }

/-- Words of 95_test_vectors.md section 6 decode to the commands they stand for. -/
def Obligations.SpecWordsDecode : Prop :=
  decode 0x00000000 = .ok .nop ∧ decode 0x1FFFC000 = .ok (.lda 16383) ∧ decode 0x20040000 = .ok (.sta 16) ∧
  decode 0x30000008 = .ok (.clrs 0 8) ∧ decode 0x40000000 = .ok .clra ∧ decode 0x5001C000 = .ok (.hbr 7) ∧
  decode 0x60008000 = .ok (.hbl 2) ∧ decode 0x70040002 = .ok (.fold 16 2) ∧
  decode 0x80080005 = .ok (.build 32 5) ∧ decode 0x900B8000 = .ok (.cmp 46) ∧ decode 0xA0000000 = .ok .dhash ∧
  decode 0xB0000000 = .error .reservedOpcode ∧ decode 0x00004000 = .error .reservedField ∧
  decode 0x90000001 = .error .reservedField

/-! ### The hash functions (40_hash256.md) -/

/-- The padding of SHA-256 (R95, which the spec takes from general knowledge; log 4): one 0x80 byte, the least number
of zero bytes, the 8-byte big-endian bit length, modulo 2^64; and the number of 64-byte blocks. -/
def Obligations.ShaPaddingFillsBlocks : Prop :=
  ∀ m : List Byte, ∃ (z : Nat) (len64 : List Byte),
    shaPad m = m ++ 0x80#8 :: (List.replicate z 0#8 ++ len64) ∧
    len64.length = 8 ∧ bytesLE len64.reverse = 8 * m.length % 2 ^ 64 ∧
    z ≤ 63 ∧ (m.length + 1 + z + 8) % 64 = 0 ∧ (∀ y, y < z → (m.length + 1 + y + 8) % 64 ≠ 0) ∧
    (shaPad m).length = 64 * ((m.length + 8) / 64 + 1)

/-- Word `j` of a SHA-256 result is the j-th final chaining word (R98, 20_memory.md R44). -/
def Obligations.ShaResultWordsAreChainingWords : Prop :=
  ∀ m : List Byte,
    let v := shaChain shaInit ((m.length + 8) / 64 + 1) (shaPad m)
    let h := sha256Standard m
    hashWord h 0 = v.a ∧ hashWord h 1 = v.b ∧ hashWord h 2 = v.c ∧ hashWord h 3 = v.d ∧
    hashWord h 4 = v.e ∧ hashWord h 5 = v.f ∧ hashWord h 6 = v.g ∧ hashWord h 7 = v.h

/-- hash256 is SHA256 twice, and hashBranch is hash256 of the left bytes followed by the right bytes, for every
SHA256 parameter (R91, R93). -/
def Obligations.DoubleHashAndBranchHash : Prop :=
  ∀ (c : Config) (m : List Byte) (l r : Bytes32),
    hash256 c m = sha256 c (sha256 c m).bytes ∧
    hashBranch c l r = sha256 c (sha256 c (l.bytes ++ r.bytes)).bytes

/-- DHASH (R99): its word, its faults, and its effect on every state where MLEN fits the buffer. -/
def Obligations.DhashHashesMessage : Prop :=
  ∀ s : State,
    (encode .dhash = 0xA0000000#32) ∧
    (∀ w : Word, w.toNat / 2 ^ 28 = 10 → w.toNat % 2 ^ 28 ≠ 0 → execWord w s = .next (s.faulted 1 w 0)) ∧
    (s.cfg.msgBytes < s.mlen.toNat → exec .dhash s = .next (s.faulted 2 0xA0000000#32 0)) ∧
    (s.mlen.toNat ≤ s.cfg.msgBytes →
      exec .dhash s =
        .next { s with acc := some (hash256 s.cfg ((List.range s.mlen.toNat).map s.msgByte)) })

/-! ### Moves and compare (41_hashid_moves_compare.md) -/

/-- NOP (R110): nothing, and only the word 0 is one. -/
def Obligations.NopHasNoEffect : Prop :=
  ∀ s : State,
    encode .nop = 0#32 ∧
    (∀ w : Word, w.toNat / 2 ^ 28 = 0 → w.toNat % 2 ^ 28 ≠ 0 → execWord w s = .next (s.faulted 1 w 0)) ∧
    exec .nop s = .next s

/-- LDA s (R111): its word, its faults, and its effect for every s below NSLOTS. -/
def Obligations.LdaLoadsSlot : Prop :=
  ∀ (s : State) (a : Nat),
    (a < 2 ^ 14 → (encode (.lda a)).toNat = 0x10000000 + a * 2 ^ 14) ∧
    (∀ w : Word, w.toNat / 2 ^ 28 = 1 → w.toNat % 2 ^ 14 ≠ 0 → execWord w s = .next (s.faulted 1 w 0)) ∧
    (s.cfg.nslots ≤ a → exec (.lda a) s = .next (s.faulted 2 (encode (.lda a)) 0)) ∧
    (a < s.cfg.nslots → exec (.lda a) s = .next { s with acc := s.slot a })

/-- STA s (R112): its word, its faults, and its effect for every s below NSLOTS; storing nil is `CLRS s, 1`. -/
def Obligations.StaStoresAccumulator : Prop :=
  ∀ (s : State) (a : Nat),
    (a < 2 ^ 14 → (encode (.sta a)).toNat = 0x20000000 + a * 2 ^ 14) ∧
    (∀ w : Word, w.toNat / 2 ^ 28 = 2 → w.toNat % 2 ^ 14 ≠ 0 → execWord w s = .next (s.faulted 1 w 0)) ∧
    (s.cfg.nslots ≤ a → exec (.sta a) s = .next (s.faulted 2 (encode (.sta a)) 0)) ∧
    (a < s.cfg.nslots →
      ∃ t, exec (.sta a) s = .next t ∧ t.slot a = s.acc ∧ (∀ k, k ≠ a → t.slot k = s.slot k) ∧
        t = { s with slots := t.slots }) ∧
    (a < s.cfg.nslots → s.acc = none → exec (.sta a) s = exec (.clrs a 1) s)

/-- CLRA (R113): ACC becomes nil, and only the word 0x40000000 is one. -/
def Obligations.ClraMakesAccumulatorNil : Prop :=
  ∀ s : State,
    encode .clra = 0x40000000#32 ∧
    (∀ w : Word, w.toNat / 2 ^ 28 = 4 → w.toNat % 2 ^ 28 ≠ 0 → execWord w s = .next (s.faulted 1 w 0)) ∧
    exec .clra s = .next { s with acc := none }

/-- CLRS s, n (R114): its word, its fault, and its effect on every range that fits; n = 0 changes nothing. -/
def Obligations.ClrsMakesRangeNil : Prop :=
  ∀ (s : State) (a n : Nat),
    (a < 2 ^ 14 → n < 2 ^ 14 → (encode (.clrs a n)).toNat = 0x30000000 + a * 2 ^ 14 + n) ∧
    (s.cfg.nslots < a + n → exec (.clrs a n) s = .next (s.faulted 2 (encode (.clrs a n)) 0)) ∧
    (a + n ≤ s.cfg.nslots →
      ∃ t, exec (.clrs a n) s = .next t ∧
        (∀ k, t.slot k = if a ≤ k ∧ k < a + n then none else s.slot k) ∧
        t = { s with slots := t.slots }) ∧
    (a ≤ s.cfg.nslots → exec (.clrs a 0) s = .next s)

/-- CMP s (R115): its word, its faults, and CMPR for every s below NSLOTS, nil operands included. -/
def Obligations.CmpWritesVerdict : Prop :=
  ∀ (s : State) (a : Nat),
    (a < 2 ^ 14 → (encode (.cmp a)).toNat = 0x90000000 + a * 2 ^ 14) ∧
    (∀ w : Word, w.toNat / 2 ^ 28 = 9 → w.toNat % 2 ^ 14 ≠ 0 → execWord w s = .next (s.faulted 1 w 0)) ∧
    (s.cfg.nslots ≤ a → exec (.cmp a) s = .next (s.faulted 2 (encode (.cmp a)) 0)) ∧
    (a < s.cfg.nslots →
      exec (.cmp a) s = .next { s with
        cmpr :=
          if compareHash s.acc (s.slot a) = -1 then 0b11#2
          else if compareHash s.acc (s.slot a) = 0 then 0b00#2 else 0b01#2 })

/-- `compare` (R117): LE256 is the sum of the bytes by weight, and the number that the display form writes; nil is
below every present value, 32 zero bytes are the least present value; and the order of the integers is the order of
the bytes from the last toward the first. That the byte order and the display form give the same order as LE256 is
what the spec derives, in R117, from D0's sentence and 10_state.md R13. -/
def Obligations.CompareOrdersFromLastByte : Prop :=
  ∀ x y : Bytes32,
    le256 x = ((List.range 32).map (fun i => (x.byte i).toNat * 2 ^ (8 * i))).sum ∧
    compareHash none none = 0 ∧ compareHash none (some y) = -1 ∧ compareHash (some x) none = 1 ∧
    (compareHash (some x) (some y) = -1 ↔ le256 x < le256 y) ∧
    (compareHash (some x) (some y) = 0 ↔ le256 x = le256 y) ∧
    (compareHash (some x) (some y) = 1 ↔ le256 y < le256 x) ∧
    (le256 x < le256 y ↔
      ∃ i, i < 32 ∧ (x.byte i).toNat < (y.byte i).toNat ∧ ∀ j, i < j → j < 32 → x.byte j = y.byte j) ∧
    ((displayHex x).length = 64 ∧
      (displayHex x).foldl (fun n ch => 16 * n + "0123456789abcdef".toList.idxOf ch) 0 = le256 x) ∧
    (compareHash none (some Bytes32.zero) = -1 ∧ (x ≠ Bytes32.zero → compareHash (some Bytes32.zero) (some x) = -1))

/-- `equals` (R116): compare is 0 exactly on equal values; nil equals nil only. -/
def Obligations.CompareZeroIsEquality : Prop :=
  ∀ a b : Option Bytes32, compareHash a b = 0 ↔ a = b

/-- `compare` is a total order (R117, which quotes D0): antisymmetric and transitive, its results -1, 0, 1. -/
def Obligations.CompareIsTotalOrder : Prop :=
  ∀ a b c : Option Bytes32,
    (compareHash a b = -1 ∨ compareHash a b = 0 ∨ compareHash a b = 1) ∧
    compareHash b a = -(compareHash a b) ∧
    (compareHash a b ≤ 0 → compareHash b c ≤ 0 → compareHash a c ≤ 0)

/-! ### Branch hash (42_hashbranch.md) -/

/-- HBR s and HBL s (R130, R131, R132): their words, their faults in order, and their effect for every s below
NSLOTS with ACC and the slot present. -/
def Obligations.BranchHashCommands : Prop :=
  ∀ (s : State) (a : Nat),
    (a < 2 ^ 14 → (encode (.hbr a)).toNat = 0x50000000 + a * 2 ^ 14 ∧
      (encode (.hbl a)).toNat = 0x60000000 + a * 2 ^ 14) ∧
    (∀ w : Word, w.toNat / 2 ^ 28 = 5 ∨ w.toNat / 2 ^ 28 = 6 → w.toNat % 2 ^ 14 ≠ 0 →
      execWord w s = .next (s.faulted 1 w 0)) ∧
    (s.cfg.nslots ≤ a →
      exec (.hbr a) s = .next (s.faulted 2 (encode (.hbr a)) 0) ∧
      exec (.hbl a) s = .next (s.faulted 2 (encode (.hbl a)) 0)) ∧
    (a < s.cfg.nslots → s.acc = none →
      exec (.hbr a) s = .next (s.faulted 3 (encode (.hbr a)) 0xFFFFFFFF) ∧
      exec (.hbl a) s = .next (s.faulted 3 (encode (.hbl a)) 0xFFFFFFFF)) ∧
    (a < s.cfg.nslots → s.acc ≠ none → s.slot a = none →
      exec (.hbr a) s = .next (s.faulted 3 (encode (.hbr a)) (BitVec.ofNat 32 a)) ∧
      exec (.hbl a) s = .next (s.faulted 3 (encode (.hbl a)) (BitVec.ofNat 32 a))) ∧
    (∀ h e : Bytes32, a < s.cfg.nslots → s.acc = some h → s.slot a = some e →
      exec (.hbr a) s = .next { s with acc := some (hash256 s.cfg (h.bytes ++ e.bytes)) } ∧
      exec (.hbl a) s = .next { s with acc := some (hash256 s.cfg (e.bytes ++ h.bytes)) })

/-! ### FOLD (44_fold_verify.md) -/

/-- FOLD s, n (R160, R161): its word, its faults in order, n = 0, and the hash chain on every other state. -/
def Obligations.FoldChainsProof : Prop :=
  ∀ (s : State) (a n : Nat),
    (a < 2 ^ 14 → n < 2 ^ 14 → (encode (.fold a n)).toNat = 0x70000000 + a * 2 ^ 14 + n) ∧
    (32 < n ∨ s.cfg.nslots < a + n → exec (.fold a n) s = .next (s.faulted 2 (encode (.fold a n)) 0)) ∧
    (n ≤ 32 → a + n ≤ s.cfg.nslots → 1 ≤ n → s.acc = none →
      exec (.fold a n) s = .next (s.faulted 3 (encode (.fold a n)) 0xFFFFFFFF)) ∧
    (n ≤ 32 → a + n ≤ s.cfg.nslots → s.acc ≠ none →
      ∀ k, a ≤ k → k < a + n → s.slot k = none → (∀ x, a ≤ x → x < k → s.slot x ≠ none) →
        exec (.fold a n) s = .next (s.faulted 3 (encode (.fold a n)) (BitVec.ofNat 32 k))) ∧
    (a ≤ s.cfg.nslots → exec (.fold a 0) s = .next s) ∧
    (n ≤ 32 → a + n ≤ s.cfg.nslots → ∀ (h : Bytes32) (e : Nat → Bytes32), s.acc = some h →
      (∀ i, i < n → s.slot (a + i) = some (e i)) →
        exec (.fold a n) s = .next { s with
          acc := some ((List.range n).foldl
            (fun x i => if s.pos.getLsbD i then hashBranch s.cfg (e i) x else hashBranch s.cfg x (e i)) h) })

/-- `FOLD s, 1` is `HBL s` when POS[0] = 1 and `HBR s` when POS[0] = 0 (R160, corner cases). -/
def Obligations.FoldOfOneIsBranchHash : Prop :=
  ∀ (s : State) (a : Nat), a < s.cfg.nslots → s.acc ≠ none → s.slot a ≠ none →
    exec (.fold a 1) s = if s.pos.getLsbD 0 then exec (.hbl a) s else exec (.hbr a) s

/-- Splitting a fold (R165, which the spec derives from R160): where none of the three commands faults, the two parts
leave the ACC of the whole. -/
def Obligations.FoldSplits : Prop :=
  ∀ (s t t1 t2 : State) (a n1 n2 : Nat), s.err = false →
    exec (.fold a (n1 + n2)) s = .next t → t.err = false →
    exec (.fold a n1) s = .next t1 → t1.err = false →
    exec (.fold (a + n1) n2) { t1 with pos := s.pos >>> n1 } = .next t2 → t2.err = false →
    t2.acc = t.acc

/-- The commands LDA, FOLD, CMP give the verdict of `verifyProof` (R162), on every state whose operands are in
range and whose leaf and proof elements are present; the root may be nil. -/
def Obligations.VerifySequenceGivesVerdict : Prop :=
  ∀ (s : State) (leaf p n r : Nat) (h : Bytes32) (es : List Bytes32), s.err = false →
    leaf < s.cfg.nslots → r < s.cfg.nslots → n ≤ 32 → p + n ≤ s.cfg.nslots →
    s.slot leaf = some h → es.length = n → (∀ i, (hi : i < es.length) → s.slot (p + i) = some es[i]) →
    ∃ t1 t2 t3,
      exec (.lda leaf) s = .next t1 ∧ exec (.fold p n) t1 = .next t2 ∧ exec (.cmp r) t2 = .next t3 ∧
      t3.err = false ∧ t3.verdict = some (verifyProof s.cfg h (s.slot r) es s.pos)

/-! ### BUILD (43_build.md) -/

/-- `nextpow2(n)` is the least power of two at or above n, and 1 for n = 0 and n = 1 (R141). -/
def Obligations.NextPow2IsLeast : Prop :=
  nextPow2 0 = 1 ∧ nextPow2 1 = 1 ∧
  ∀ n, (∃ k, nextPow2 n = 2 ^ k) ∧ n ≤ nextPow2 n ∧ ∀ k, n ≤ 2 ^ k → nextPow2 n ≤ 2 ^ k

/-- The faults of BUILD (R143, R144): a store that does not fit, then the lowest nil leaf. -/
def Obligations.BuildFaults : Prop :=
  ∀ (s : State) (b n : Nat),
    (s.cfg.nslots < b + 2 * nextPow2 n - 1 →
      exec (.build b n) s = .next (s.faulted 2 (encode (.build b n)) 0)) ∧
    (b + 2 * nextPow2 n - 1 ≤ s.cfg.nslots →
      ∀ k, b ≤ k → k < b + n → s.slot k = none → (∀ x, b ≤ x → x < k → s.slot x ≠ none) →
        exec (.build b n) s = .next (s.faulted 3 (encode (.build b n)) (BitVec.ofNat 32 k)))

/-- BUILD b, n completes wherever its store fits and its leaves are present (R140), and leaves: the leaves and all
slots outside the store (R151), nil padding (R145), every other node the parent of its children (R146), RIDX and
ACC (R147), and nothing else changed. -/
def Obligations.BuildMakesTreeStore : Prop :=
  ∀ (s : State) (b n : Nat),
    (b < 2 ^ 14 → n < 2 ^ 14 → (encode (.build b n)).toNat = 0x80000000 + b * 2 ^ 14 + n) ∧
    (b + 2 * nextPow2 n - 1 ≤ s.cfg.nslots → (∀ i, i < n → s.slot (b + i) ≠ none) →
      ∃ t, exec (.build b n) s = .next t ∧
        (∀ k, k < b + n ∨ b + 2 * nextPow2 n - 1 ≤ k → t.slot k = s.slot k) ∧
        (∀ k, b + n ≤ k → k < b + nextPow2 n → t.slot k = none) ∧
        (∀ j, j + 1 < nextPow2 n →
          t.slot (b + nextPow2 n + j) =
            match t.slot (b + 2 * j), t.slot (b + 2 * j + 1) with
            | none, _ => none
            | some l, none => some (hashBranch s.cfg l l)
            | some l, some r => some (hashBranch s.cfg l r)) ∧
        t.acc = t.slot (b + 2 * nextPow2 n - 2) ∧
        (s.cfg.slotAw ≤ 14 → t.ridx.toNat = b + 2 * nextPow2 n - 2) ∧
        t = { s with slots := t.slots, acc := t.acc, ridx := t.ridx })

/-- Level k of a built store holds exactly ceil(n / 2^k) present nodes, the first of the level; for n = 0 the
single slot is nil (R149, which the spec derives from R144, R145 and R146). -/
def Obligations.BuildLevelsArePrefixes : Prop :=
  ∀ (s t : State) (b n : Nat), b + 2 * nextPow2 n - 1 ≤ s.cfg.nslots →
    (∀ i, i < n → s.slot (b + i) ≠ none) → exec (.build b n) s = .next t →
    (n = 0 → t.slot b = none) ∧
    (1 ≤ n → ∀ k j, 2 ^ k ≤ nextPow2 n → j < nextPow2 n / 2 ^ k →
      (t.slot (b + levelOffset (nextPow2 n) k + j) ≠ none ↔ j < (n + 2 ^ k - 1) / 2 ^ k))

/-- The root is a function of the list of leaves alone (R150): not of the base, nor of any other state. -/
def Obligations.BuildRootDependsOnLeavesOnly : Prop :=
  ∀ (s s' t t' : State) (b b' n : Nat), s.cfg.hash = s'.cfg.hash →
    b + 2 * nextPow2 n - 1 ≤ s.cfg.nslots → b' + 2 * nextPow2 n - 1 ≤ s'.cfg.nslots →
    (∀ i, i < n → s.slot (b + i) ≠ none) → (∀ i, i < n → s.slot (b + i) = s'.slot (b' + i)) →
    exec (.build b n) s = .next t → exec (.build b' n) s' = .next t' → t.acc = t'.acc

/-- The rows of the table of R148, n = 0 to n = 5. -/
def Obligations.BuildSmallTrees : Prop :=
  ∀ (s : State) (b : Nat) (x0 x1 x2 x3 x4 : Bytes32), s.cfg.slotAw ≤ 14 →
    let hb := hashBranch s.cfg
    (b + 1 ≤ s.cfg.nslots →
      ∃ t, exec (.build b 0) s = .next t ∧ t.slot b = none ∧ t.ridx.toNat = b ∧ t.acc = none ∧
        ∀ k, k ≠ b → t.slot k = s.slot k) ∧
    (b + 1 ≤ s.cfg.nslots → s.slot b = some x0 →
      ∃ t, exec (.build b 1) s = .next t ∧ t.ridx.toNat = b ∧ t.acc = some x0 ∧ ∀ k, t.slot k = s.slot k) ∧
    (b + 3 ≤ s.cfg.nslots → s.slot b = some x0 → s.slot (b + 1) = some x1 →
      ∃ t, exec (.build b 2) s = .next t ∧ t.slot (b + 2) = some (hb x0 x1) ∧ t.ridx.toNat = b + 2 ∧
        ∀ k, k ≠ b + 2 → t.slot k = s.slot k) ∧
    (b + 7 ≤ s.cfg.nslots → s.slot b = some x0 → s.slot (b + 1) = some x1 → s.slot (b + 2) = some x2 →
      ∃ t, exec (.build b 3) s = .next t ∧ t.slot (b + 3) = none ∧ t.slot (b + 4) = some (hb x0 x1) ∧
        t.slot (b + 5) = some (hb x2 x2) ∧ t.slot (b + 6) = some (hb (hb x0 x1) (hb x2 x2)) ∧
        t.ridx.toNat = b + 6) ∧
    (b + 7 ≤ s.cfg.nslots → s.slot b = some x0 → s.slot (b + 1) = some x1 → s.slot (b + 2) = some x2 →
      s.slot (b + 3) = some x3 →
      ∃ t, exec (.build b 4) s = .next t ∧ t.slot (b + 4) = some (hb x0 x1) ∧
        t.slot (b + 5) = some (hb x2 x3) ∧ t.slot (b + 6) = some (hb (hb x0 x1) (hb x2 x3)) ∧
        t.ridx.toNat = b + 6) ∧
    (b + 15 ≤ s.cfg.nslots → s.slot b = some x0 → s.slot (b + 1) = some x1 → s.slot (b + 2) = some x2 →
      s.slot (b + 3) = some x3 → s.slot (b + 4) = some x4 →
      ∃ t, exec (.build b 5) s = .next t ∧
        (t.slot (b + 5) = none ∧ t.slot (b + 6) = none ∧ t.slot (b + 7) = none) ∧
        t.slot (b + 8) = some (hb x0 x1) ∧ t.slot (b + 9) = some (hb x2 x3) ∧
        t.slot (b + 10) = some (hb x4 x4) ∧ t.slot (b + 11) = none ∧
        t.slot (b + 12) = some (hb (hb x0 x1) (hb x2 x3)) ∧
        t.slot (b + 13) = some (hb (hb x4 x4) (hb x4 x4)) ∧
        t.slot (b + 14) = some (hb (hb (hb x0 x1) (hb x2 x3)) (hb (hb x4 x4) (hb x4 x4))) ∧
        t.ridx.toNat = b + 14)

/-- Soundness for stores built by the unit (44_fold_verify.md R164, which the spec derives from R160, R161, R163
and 43_build.md R146): for every leaf of every store that BUILD
produces, the proof of R163 exists, has log2 P elements, and folds the leaf to the root that BUILD left in ACC. -/
def Obligations.ProofOfBuiltLeafVerifies : Prop :=
  ∀ (s t : State) (b n p : Nat), n < 2 ^ 14 → b + 2 * nextPow2 n - 1 ≤ s.cfg.nslots →
    (∀ i, i < n → s.slot (b + i) ≠ none) → p < n → exec (.build b n) s = .next t →
    ∃ (es : List Bytes32) (leaf root : Bytes32),
      extractProof t.slots b n p = es.map some ∧ 2 ^ es.length = nextPow2 n ∧
      s.slot (b + p) = some leaf ∧ t.acc = some root ∧
      foldProof s.cfg (BitVec.ofNat 32 p) 0 es leaf = root ∧
      verifyProof s.cfg leaf t.acc es (BitVec.ofNat 32 p) = true

/-! ### What no command touches -/

/-- No command changes POS, MLEN, MSG or CTRL (10_state.md R18, R19, R20, and the "Written by" column of R10). DONE
and INFLIGHT, which the `Complete` step writes (60_exceptions.md R171), are not changed by a command's own effect
either; and the parameters (log 3), the count of resets (log 5) and the record of the host's side (log 1), the model's
own fields, are as before. -/
def Obligations.CommandsLeaveHostRegisters : Prop :=
  ∀ (i : Instr) (s t : State), exec i s = .next t →
    t.cfg = s.cfg ∧ t.pos = s.pos ∧ t.mlen = s.mlen ∧ t.msg = s.msg ∧ (∀ a, t.msgByte a = s.msgByte a) ∧
    t.ieDone = s.ieDone ∧ t.ieErr = s.ieErr ∧ t.done = s.done ∧ t.inflight = s.inflight ∧
    t.resets = s.resets ∧ t.agenda = s.agenda ∧ t.held = s.held ∧ t.log = s.log

/-- Which commands write which item (the "Written by" column of 10_state.md R10, with R24 and R28), and no command
produces CMPR = 0b10. -/
def Obligations.WritersOfEachItem : Prop :=
  ∀ (i : Instr) (s t : State), exec i s = .next t →
    (t.cmpr ≠ s.cmpr → i.mnemonic = "CMP") ∧
    (t.ridx ≠ s.ridx → i.mnemonic = "BUILD") ∧
    ((∃ k, t.slot k ≠ s.slot k) → i.mnemonic ∈ ["STA", "CLRS", "BUILD"]) ∧
    (t.acc ≠ s.acc → i.mnemonic ∈ ["LDA", "CLRA", "HBR", "HBL", "FOLD", "BUILD", "DHASH"]) ∧
    (t.cmpr = 0b10#2 → s.cmpr = 0b10#2)

/-! ### Completion and faults (60_exceptions.md) -/

/-- A step runs the decoded command: with the unit to move, a command in flight and ERR = 0, the step is `exec` of
it on the state whose INFLIGHT is none, and sets DONE (R171). Likewise for a word placed by `withFetchWord`. -/
def Obligations.StepRunsDecodedCommand : Prop :=
  (∀ (s : State) (w : Word) (i : Instr) (l : List Turn),
    s.agenda = .unit :: l → s.inflight = some w → s.err = false → decode w = .ok i →
    step s = retire (exec i { s with agenda := l, inflight := none })) ∧
  (∀ (s : State) (w : Nat) (i : Instr),
    s.err = false → decodeTableWord 32 w = some i →
    step (s.withFetchWord 32 w) = retire (exec i { s with inflight := none, done := false }))

/-- Issue and completion (20_memory.md R54, R58, 60_exceptions.md R171): a command that the host writes to CMD of
an idle unit without a fault executes whole on the state left by the transactions before it. -/
def Obligations.IssuedCommandExecutes : Prop :=
  ∀ (s : State) (i : Instr) (l : List Turn), i.wf = true →
    s.agenda = .host (.write 0x010 (encode i)) :: .unit :: l → s.held = none → s.inflight = none →
    s.err = false →
    (Sys2Proof.core.run 2 s : Host.Outcome State Fault Refusal) =
      retire (exec i { s with
        agenda := l, done := false, log := (.write 0x010 (encode i), .ok) :: s.log })

/-- Fault entry (R173, R175): if a completion ends with ERR = 1 from ERR = 0, it recorded the fault of its own word
and changed nothing else. -/
def Obligations.FaultRecordsAndChangesNothingElse : Prop :=
  ∀ (s t : State) (w : Word) (l : List Turn),
    s.agenda = .unit :: l → s.inflight = some w → s.err = false → step s = .next t → t.err = true →
    (t.ecode = 1 ∨ t.ecode = 2 ∨ t.ecode = 3) ∧ (t.ecode ≠ 3 → t.eidx = 0) ∧
    t = { s with
      agenda := l, inflight := none, done := true,
      err := true, ecode := t.ecode, ecmd := w, eidx := t.eidx }

/-- While ERR = 1 a command is accepted as usual, and its completion drops it (R176). -/
def Obligations.CommandDroppedWhileErr : Prop :=
  ∀ (s : State) (w : Word) (l : List Turn), s.err = true →
    (s.agenda = .host (.write 0x010 w) :: l → s.held = none → s.inflight = none →
      step s = .next { s with
        agenda := l, inflight := some w, done := false, log := (.write 0x010 w, .ok) :: s.log }) ∧
    (s.agenda = .unit :: l → s.inflight = some w →
      step s = .next { s with agenda := l, inflight := none, done := true })

/-- A write of STATUS to an idle unit (10_state.md R21, 60_exceptions.md R177): bit 1 clears DONE, bit 2 clears ERR
and ECODE; ECMD and EIDX and all the rest stay. -/
def Obligations.StatusWriteAcknowledges : Prop :=
  ∀ (s : State) (v : Word) (l : List Turn),
    s.agenda = .host (.write 0x00C v) :: l → s.held = none → s.inflight = none →
    step s = .next { s with
      agenda := l
      log := (.write 0x00C v, .ok) :: s.log
      done := s.done && !(v.getLsbD 1)
      err := s.err && !(v.getLsbD 2)
      ecode := if v.getLsbD 2 then 0 else s.ecode }

/-- Every completion clears INFLIGHT and sets DONE, whatever became of the command (10_state.md R22, R31), and
raises irq if IE_DONE is set (R179, R180). -/
def Obligations.CompletionSetsDone : Prop :=
  ∀ (s t : State) (w : Word) (l : List Turn),
    s.agenda = .unit :: l → s.inflight = some w → step s = .next t →
    t.inflight = none ∧ t.done = true ∧ t.agenda = l ∧ (s.ieDone = true → t.irq = true)

/-- irq is a function of the state (R179). -/
def Obligations.IrqIsFunctionOfState : Prop :=
  ∀ s : State, s.irq = true ↔ (s.done = true ∧ s.ieDone = true) ∨ (s.err = true ∧ s.ieErr = true)

/-- The machine never stops (R170, R171, and the total decoder of 30_encoding.md R74): every step of every state
answers a next state. -/
def Obligations.EveryStepAnswersNext : Prop :=
  ∀ s : State, ∃ t, step s = .next t

/-- A command does not stay in flight: whatever the turns to come are, a state without one in flight is reached in at
most one step more than there are turns, by the command's `Complete` step or by a reset that abandons it
(70_reset_and_hazards.md R202). R206 only assumes that `Complete` eventually happens; the bound is the MODEL's choice,
from the moment at which it takes `Complete` (log 7, DESIGN CHOICE) and from the list of turns (log 1, DESIGN CHOICE). -/
def Obligations.CommandInFlightCompletes : Prop :=
  ∀ s : State, s.busy = true →
    ∃ (k : Nat) (t : State), k ≤ s.agenda.length + 1 ∧
      (Sys2Proof.core.run k s : Host.Outcome State Fault Refusal) = .next t ∧ t.busy = false

/-! ### The host port (20_memory.md) -/

/-- The packing of a HashID into words (R44): big-endian, and `setword` changes four bytes only. -/
def Obligations.HashWordsAreBigEndian : Prop :=
  ∀ (h : Bytes32) (j : Nat) (v : Word), j < 8 →
    (hashWord h j).toNat =
      (h.byte (4 * j)).toNat * 2 ^ 24 + (h.byte (4 * j + 1)).toNat * 2 ^ 16 +
        (h.byte (4 * j + 2)).toNat * 2 ^ 8 + (h.byte (4 * j + 3)).toNat ∧
    (setHashWord h j v).byte (4 * j) = v.extractLsb' 24 8 ∧
    (setHashWord h j v).byte (4 * j + 1) = v.extractLsb' 16 8 ∧
    (setHashWord h j v).byte (4 * j + 2) = v.extractLsb' 8 8 ∧
    (setHashWord h j v).byte (4 * j + 3) = v.extractLsb' 0 8 ∧
    (∀ i, i < 32 → i / 4 ≠ j → (setHashWord h j v).byte i = h.byte i)

/-- An idle unit performs the presented transaction: its effect, its response in the log, and no other change. -/
def Obligations.IdleUnitPerformsTransaction : Prop :=
  ∀ (s : State) (t : HostTxn) (l : List Turn),
    s.agenda = .host t :: l → s.held = none → s.inflight = none →
    step s = .next { s.effect t with agenda := l, log := (t, s.respond t) :: s.log }

/-- What reads answer (R59, with R45 and R48): every register of the map, in the words of the rule. -/
def Obligations.HostReadValues : Prop :=
  ∀ s : State,
    s.respond (.read 0x000) = .value 0x48323536 ∧
    s.respond (.read 0x004) = .value (BitVec.ofNat 32 (s.cfg.slotAw + s.cfg.msgBytes * 2 ^ 16)) ∧
    s.respond (.read 0x008) = .value (BitVec.ofNat 32 (s.ieDone.toNat + 2 * s.ieErr.toNat)) ∧
    s.respond (.read 0x00C) = .value (BitVec.ofNat 32
      (s.inflight.isSome.toNat + 2 * s.done.toNat + 4 * s.err.toNat + 8 * s.acc.isSome.toNat
        + 16 * s.cmpr.toNat + 256 * s.ecode.toNat)) ∧
    s.respond (.read 0x010) = .value 0 ∧
    s.respond (.read 0x014) = .value s.pos ∧
    s.respond (.read 0x018) = .value s.mlen ∧
    s.respond (.read 0x01C) = .value (BitVec.ofNat 32 s.ridx.toNat) ∧
    s.respond (.read 0x020) = .value s.ecmd ∧
    s.respond (.read 0x024) = .value s.eidx ∧
    (∀ j, j < 8 → s.acc = none → s.respond (.read (0x040 + 4 * j)) = .value 0) ∧
    (∀ j h, j < 8 → s.acc = some h → s.respond (.read (0x040 + 4 * j)) = .value (hashWord h j)) ∧
    (∀ k, k < s.cfg.msgBytes / 4 → s.respond (.read (0x100 + 4 * k)) =
      .value (BitVec.ofNat 32
        ((s.msgByte (4 * k)).toNat * 2 ^ 24 + (s.msgByte (4 * k + 1)).toNat * 2 ^ 16
          + (s.msgByte (4 * k + 2)).toNat * 2 ^ 8 + (s.msgByte (4 * k + 3)).toNat))) ∧
    (∀ off, (0x028 ≤ off ∧ off < 0x040) ∨ (0x060 ≤ off ∧ off < 0x100) ∨ 0x100 + s.cfg.msgBytes ≤ off →
      s.respond (.read off) = .err)

/-- What writes do (R57, with R46, R49 and R58): every register of the map. -/
def Obligations.HostWriteEffects : Prop :=
  ∀ (s : State) (v : Word),
    (∀ off, off ∈ [0x000, 0x004, 0x01C, 0x020, 0x024] → s.effect (.write off v) = s) ∧
    s.effect (.write 0x008 v) = { s with ieDone := v.getLsbD 0, ieErr := v.getLsbD 1 } ∧
    s.effect (.write 0x00C v) = { s with
      done := s.done && !(v.getLsbD 1), err := s.err && !(v.getLsbD 2),
      ecode := if v.getLsbD 2 then 0 else s.ecode } ∧
    s.effect (.write 0x010 v) = { s with inflight := some v, done := false } ∧
    s.effect (.write 0x014 v) = { s with pos := v } ∧
    s.effect (.write 0x018 v) = { s with mlen := v } ∧
    (∀ j, j < 8 → s.effect (.write (0x040 + 4 * j) v) =
      { s with acc := some (setHashWord (s.acc.getD Bytes32.zero) j v) }) ∧
    (∀ k, k < s.cfg.msgBytes / 4 →
      (∀ a, (s.effect (.write (0x100 + 4 * k) v)).msgByte a =
        if a = 4 * k then v.extractLsb' 24 8
        else if a = 4 * k + 1 then v.extractLsb' 16 8
        else if a = 4 * k + 2 then v.extractLsb' 8 8
        else if a = 4 * k + 3 then v.extractLsb' 0 8
        else s.msgByte a) ∧
      s.effect (.write (0x100 + 4 * k) v) =
        { s with msg := (s.effect (.write (0x100 + 4 * k) v)).msg }) ∧
    (∀ off, off ∈ [0x000, 0x004, 0x008, 0x00C, 0x010, 0x014, 0x018, 0x01C, 0x020, 0x024] →
      s.respond (.write off v) = .ok) ∧
    (∀ j, j < 8 → s.respond (.write (0x040 + 4 * j) v) = .ok) ∧
    (∀ k, k < s.cfg.msgBytes / 4 → s.respond (.write (0x100 + 4 * k) v) = .ok) ∧
    (∀ off, (0x028 ≤ off ∧ off < 0x040) ∨ (0x060 ≤ off ∧ off < 0x100) ∨ 0x100 + s.cfg.msgBytes ≤ off →
      s.respond (.write off v) = .err ∧ s.effect (.write off v) = s)

/-- The decode of offsets (R42): both transactions answer err, and nothing changes, exactly where the map has no
register: 0x028 to 0x03C, 0x060 to 0x0FC, 0x100 + MSGBYTES and above. That an offset which is no multiple of 4 answers
err too is the model's reading of 92_eei_decisions.md D26 (log 8). -/
def Obligations.UnmappedOffsetsAnswerErr : Prop :=
  ∀ (s : State) (off : Nat) (v : Word), s.cfg.wf = true →
    ((off % 4 ≠ 0 ∨ (0x028 ≤ off ∧ off < 0x040) ∨ (0x060 ≤ off ∧ off < 0x100) ∨ 0x100 + s.cfg.msgBytes ≤ off) ↔
      s.respond (.read off) = .err) ∧
    (s.respond (.write off v) = .err ↔ s.respond (.read off) = .err) ∧
    (s.respond (.read off) = .err → s.effect (.write off v) = s)

/-- Access types (R43): reads change nothing, writes of read-only registers answer ok and change nothing, CMD reads 0. -/
def Obligations.AccessTypes : Prop :=
  ∀ (s : State) (v : Word),
    (∀ off, s.effect (.read off) = s) ∧
    (∀ off, off ∈ [0x000, 0x004, 0x01C, 0x020, 0x024] →
      s.respond (.write off v) = .ok ∧ s.effect (.write off v) = s) ∧
    s.respond (.read 0x010) = .value 0

/-- To load ACC the host writes its eight words in any order (R46), whatever ACC held. -/
def Obligations.EightWordWritesLoadAccumulator : Prop :=
  ∀ (s : State) (h : Bytes32) (order : List Nat), order.Perm (List.range 8) →
    order.foldl (fun x j => x.effect (.write (0x040 + 4 * j) (hashWord h j))) s = { s with acc := some h }

/-- A word written to ACC or to MSG reads back (R44 to R49), and the other ACC words read as before, 0 if ACC was nil. -/
def Obligations.WrittenWordsReadBack : Prop :=
  ∀ (s : State) (v : Word),
    (∀ j, j < 8 →
      (s.effect (.write (0x040 + 4 * j) v)).respond (.read (0x040 + 4 * j)) = .value v ∧
      ∀ i, i < 8 → i ≠ j →
        (s.effect (.write (0x040 + 4 * j) v)).respond (.read (0x040 + 4 * i)) = s.respond (.read (0x040 + 4 * i))) ∧
    (∀ k, k < s.cfg.msgBytes / 4 →
      (s.effect (.write (0x100 + 4 * k) v)).respond (.read (0x100 + 4 * k)) = .value v ∧
      ∀ i, i < s.cfg.msgBytes / 4 → i ≠ k →
        (s.effect (.write (0x100 + 4 * k) v)).respond (.read (0x100 + 4 * i)) = s.respond (.read (0x100 + 4 * i)))

/-- The hold (R53). While a command is in flight only a STATUS read is performed, with BUSY = 1 and DONE = 0; any
other transaction is held, then the command completes, then the held transaction is performed on what it left. -/
def Obligations.HoldWhileBusy : Prop :=
  ∀ (s : State) (l : List Turn), s.Inv → s.inflight ≠ none →
    (s.held = none → s.agenda = .host statusRead :: l →
      step s = .next { s with agenda := l, log := (statusRead, .value s.statusWord) :: s.log } ∧
      s.statusWord.getLsbD 0 = true ∧ s.statusWord.getLsbD 1 = false) ∧
    (∀ t, t ≠ statusRead → s.held = none → s.agenda = .host t :: l →
      step s = .next { s with agenda := l, held := some t }) ∧
    (∀ t, s.held = some t → (s.agenda = [] ∨ ∃ x, s.agenda = .host x :: l) →
      step s = s.complete ∧
      ∀ s1, step s = .next s1 →
        s1.held = some t ∧ s1.agenda = s.agenda ∧
        step s1 = .next { s1.effect t with held := none, log := (t, s1.respond t) :: s1.log })

/-- The slot memory is written only by commands (R47): a step in which no command completes, and which is no reset,
leaves every slot, and with them CMPR, RIDX, ECMD and EIDX, as before. -/
def Obligations.OnlyCompletionsWriteSlots : Prop :=
  ∀ s t : State, step s = .next t → t.resets = s.resets → (s.inflight = none ∨ t.inflight ≠ none) →
    (∀ k, t.slot k = s.slot k) ∧ t.cmpr = s.cmpr ∧ t.ridx = s.ridx ∧ t.ecmd = s.ecmd ∧ t.eidx = s.eidx

/-- MSG is written only by the host, one word at a time (R49, 10_state.md R10 and R33): in a step that is no reset and
performs no write of its word, a message byte keeps its value, written or free. -/
def Obligations.MessageBytesAreStable : Prop :=
  ∀ (s t : State) (a : Nat), step s = .next t → t.resets = s.resets →
    (∀ v r, t.log ≠ (.write (0x100 + 4 * (a / 4)) v, r) :: s.log) → t.msgByte a = s.msgByte a

/-! ### Invariant, parameters, reset -/

/-- Every step keeps the invariant. -/
def Obligations.StepKeepsInv : Prop :=
  ∀ s t : State, s.Inv → step s = .next t → t.Inv

/-- The state after reset meets the invariant; so does the state after any later reset. -/
def Obligations.ResetStateMeetsInv : Prop :=
  State.reset.Inv ∧ ∀ s : State, s.cfg.wf = true → s.hardReset.Inv

/-- No step changes the parameters (00_scope.md R2, R3, R4). -/
def Obligations.ParametersAreFixed : Prop :=
  ∀ s t : State, step s = .next t → t.cfg = s.cfg

/-- Reset (70_reset_and_hazards.md R201, R202): `State.reset`, and the state after a reset of any state, has the
reset value of every item, STATUS reads 0x00000020 and irq is 0. A command in flight is abandoned, no completion is
signalled, and a held transaction is not performed. Nothing is said of the MSG bytes. -/
def Obligations.ResetLeavesResetValues : Prop :=
  let resetValues (t : State) : Prop :=
    (∀ k, t.slot k = none) ∧ t.acc = none ∧ t.pos = 0 ∧ t.mlen = 0 ∧
    t.ieDone = false ∧ t.ieErr = false ∧ t.done = false ∧ t.err = false ∧ t.ecode = 0 ∧ t.cmpr = 0b10#2 ∧
    t.ecmd = 0 ∧ t.eidx = 0 ∧ t.ridx = 0 ∧ t.inflight = none ∧ t.statusWord = 0x00000020 ∧ t.irq = false
  resetValues State.reset ∧
  ∀ (s : State) (l : List Turn), s.agenda = .reset :: l →
    ∃ t, step s = .next t ∧ resetValues t ∧ t.held = none ∧ t.log = s.log

/-- The MODEL's part of a reset (log 1, log 3, log 5; DESIGN CHOICE): the parameters and the turns to come stay, the
resets are counted, and every message byte is a free value of that reset, as 10_state.md R33 leaves it. -/
def Obligations.ResetDrawsMessageBytesAnew : Prop :=
  ∀ (s : State) (l : List Turn), s.agenda = .reset :: l →
    ∃ t, step s = .next t ∧ t.cfg = s.cfg ∧ t.agenda = l ∧ t.resets = s.resets + 1 ∧
      ∀ a, t.msgByte a = Config.msgAtReset (s.resets + 1) a
end

