-- ==== Sys2Proof/Laws/Memory.lean ====
section
/-! SUPPORT. The laws of memories: what a read gives after each operation, and that each operation keeps the
canonical form. -/

namespace Sys2Proof.Machine

variable {β : Type}

@[simp] theorem Memory.read_nil (a : Nat) : Memory.read ([] : Memory β) a = none := rfl

/-! ### Reads -/

theorem Memory.read_write (a : Nat) (v : β) (m : Memory β) (x : Nat) :
    Memory.read (Memory.write a v m) x = if x = a then some v else Memory.read m x := by
  induction m with
  | nil => simp [Memory.write, Memory.read, eq_comm]
  | cons c m ih =>
    obtain ⟨k, u⟩ := c
    simp only [Memory.write]
    split
    · simp [Memory.read, eq_comm]
    · split
      · subst_vars
        by_cases h : k = x <;> simp [Memory.read, h, eq_comm]
        intro hx; exact absurd hx.symm h
      · simp only [Memory.read, ih]
        by_cases h : k = x
        · subst h
          have : ¬ k = a := fun e => by simp_all
          simp [this]
        · simp [h]

@[simp] theorem Memory.read_write_same (a : Nat) (v : β) (m : Memory β) :
    Memory.read (Memory.write a v m) a = some v := by
  simp [Memory.read_write]

theorem Memory.read_write_other {a x : Nat} (v : β) (m : Memory β) (h : x ≠ a) :
    Memory.read (Memory.write a v m) x = Memory.read m x := by
  simp [Memory.read_write, h]

theorem Memory.read_clear (a n : Nat) (m : Memory β) (x : Nat) :
    Memory.read (Memory.clear a n m) x = if a ≤ x ∧ x < a + n then none else Memory.read m x := by
  induction m with
  | nil => simp [Memory.clear]
  | cons c m ih =>
    obtain ⟨k, u⟩ := c
    simp only [Memory.clear] at ih ⊢
    by_cases hk : k < a ∨ a + n ≤ k
    · simp only [List.filter_cons, hk, decide_true, if_true, Memory.read, ih]
      by_cases hx : k = x
      · subst hx
        have : ¬ (a ≤ k ∧ k < a + n) := by omega
        simp [this]
      · simp [hx]
    · simp only [List.filter_cons, hk, decide_false, Memory.read, Bool.false_eq_true, if_false]
      rw [ih]
      by_cases hx : k = x
      · subst hx
        have : a ≤ k ∧ k < a + n := by omega
        simp [this]
      · simp [hx]

theorem Memory.read_put (a : Nat) (v : Option β) (m : Memory β) (x : Nat) :
    Memory.read (Memory.put a v m) x = if x = a then v else Memory.read m x := by
  cases v with
  | some v => simp [Memory.put, Memory.read_write]
  | none =>
    simp only [Memory.put, Memory.read_clear]
    by_cases h : x = a
    · subst h; simp
    · rw [if_neg h, if_neg (by omega)]

/-! ### The canonical form -/

theorem Memory.wf_cons (c : Nat × β) (m : Memory β) :
    Memory.wf (c :: m) = true ↔ (∀ d ∈ m, c.1 < d.1) ∧ Memory.wf m = true := by
  simp [Memory.wf, List.all_eq_true]

theorem Memory.mem_write {a : Nat} {v : β} {m : Memory β} {d : Nat × β} (h : d ∈ Memory.write a v m) :
    d = (a, v) ∨ d ∈ m := by
  induction m with
  | nil => simpa [Memory.write] using h
  | cons c m ih =>
    obtain ⟨k, u⟩ := c
    simp only [Memory.write] at h
    split at h
    · simpa using h
    · split at h
      · rcases List.mem_cons.mp h with h | h
        · exact .inl h
        · exact .inr (List.mem_cons_of_mem _ h)
      · rcases List.mem_cons.mp h with h | h
        · exact .inr (by simp [h])
        · rcases ih h with h | h
          · exact .inl h
          · exact .inr (List.mem_cons_of_mem _ h)

/-- A write keeps the canonical form. -/
theorem Memory.wf_write (a : Nat) (v : β) {m : Memory β} (h : Memory.wf m = true) :
    Memory.wf (Memory.write a v m) = true := by
  induction m with
  | nil => rfl
  | cons c m ih =>
    obtain ⟨k, u⟩ := c
    have hc := (Memory.wf_cons _ _).mp h
    simp only [Memory.write]
    split
    · rename_i hlt
      refine (Memory.wf_cons _ _).mpr ⟨?_, h⟩
      intro d hd
      rcases List.mem_cons.mp hd with rfl | hd
      · exact hlt
      · exact lt_trans hlt (hc.1 d hd)
    · split
      · subst_vars
        exact (Memory.wf_cons _ _).mpr ⟨hc.1, hc.2⟩
      · refine (Memory.wf_cons _ _).mpr ⟨?_, ih hc.2⟩
        intro d hd
        rcases Memory.mem_write hd with rfl | hd
        · simp only; omega
        · exact hc.1 d hd

/-- A clear keeps the canonical form. -/
theorem Memory.wf_clear (a n : Nat) {m : Memory β} (h : Memory.wf m = true) :
    Memory.wf (Memory.clear a n m) = true := by
  induction m with
  | nil => rfl
  | cons c m ih =>
    have hc := (Memory.wf_cons _ _).mp h
    have ih := ih hc.2
    simp only [Memory.clear, List.filter_cons] at ih ⊢
    split
    · exact (Memory.wf_cons _ _).mpr ⟨fun d hd => hc.1 d (List.mem_of_mem_filter hd), ih⟩
    · exact ih

/-- A put keeps the canonical form. -/
theorem Memory.wf_put (a : Nat) (v : Option β) {m : Memory β} (h : Memory.wf m = true) :
    Memory.wf (Memory.put a v m) = true := by
  cases v with
  | some v => exact Memory.wf_write a v h
  | none => exact Memory.wf_clear a 1 h

theorem Memory.read_eq_none_of_lt {a : Nat} {m : Memory β} (h : ∀ d ∈ m, a < d.1) :
    Memory.read m a = none := by
  induction m with
  | nil => rfl
  | cons c m ih =>
    obtain ⟨k, u⟩ := c
    have hk : a < k := h (k, u) (by simp)
    have : ¬ k = a := by omega
    simp only [Memory.read, this, if_false]
    exact ih (fun d hd => h d (List.mem_cons_of_mem _ hd))

/-- Canonical memories that read alike are equal. -/
theorem Memory.ext_read {m m' : Memory β} (h : Memory.wf m = true) (h' : Memory.wf m' = true)
    (hr : ∀ x, Memory.read m x = Memory.read m' x) : m = m' := by
  induction m generalizing m' with
  | nil =>
    cases m' with
    | nil => rfl
    | cons c m' =>
      obtain ⟨k, u⟩ := c
      simpa [Memory.read] using hr k
  | cons c m ih =>
    obtain ⟨k, u⟩ := c
    have hc := (Memory.wf_cons _ _).mp h
    cases m' with
    | nil => simpa [Memory.read] using hr k
    | cons c' m' =>
      obtain ⟨k', u'⟩ := c'
      have hc' := (Memory.wf_cons _ _).mp h'
      have hkk : k = k' := by
        rcases Nat.lt_trichotomy k k' with hlt | heq | hgt
        · have h1 := hr k
          have h2 : Memory.read ((k', u') :: m') k = none := by
            refine Memory.read_eq_none_of_lt (fun d hd => ?_)
            rcases List.mem_cons.mp hd with rfl | hd
            · exact hlt
            · exact lt_trans hlt (hc'.1 d hd)
          rw [h2] at h1
          simp [Memory.read] at h1
        · exact heq
        · have h1 := hr k'
          have h2 : Memory.read ((k, u) :: m) k' = none := by
            refine Memory.read_eq_none_of_lt (fun d hd => ?_)
            rcases List.mem_cons.mp hd with rfl | hd
            · exact hgt
            · exact lt_trans hgt (hc.1 d hd)
          rw [h2] at h1
          simp [Memory.read] at h1
      subst hkk
      have hu : u = u' := by simpa [Memory.read] using hr k
      subst hu
      congr 1
      refine ih hc.2 hc'.2 (fun x => ?_)
      by_cases hx : k = x
      · subst hx
        rw [Memory.read_eq_none_of_lt hc.1, Memory.read_eq_none_of_lt hc'.1]
      · simpa [Memory.read, hx] using hr x

/-! ### Ranges of present slots -/

/-- What a range check answers when it succeeds: every slot of the range, lowest first. -/
theorem presentRange_ok {m : Memory Bytes32} {a n : Nat} {es : List Bytes32}
    (h : presentRange m a n = .ok es) :
    es.length = n ∧ ∀ i, (hi : i < es.length) → Memory.read m (a + i) = some es[i] := by
  induction n generalizing a es with
  | zero =>
    simp only [presentRange, Except.ok.injEq] at h
    subst h; simp
  | succ n ih =>
    simp only [presentRange] at h
    split at h
    · exact absurd h (by simp)
    · rename_i e he
      split at h
      · exact absurd h (by simp)
      · rename_i es' hes
        simp only [Except.ok.injEq] at h
        subst h
        obtain ⟨hl, hr⟩ := ih hes
        refine ⟨by simp [hl], fun i hi => ?_⟩
        cases i with
        | zero => simpa using he
        | succ i =>
          have := hr i (by simpa using hi)
          simpa [Nat.add_assoc, Nat.add_comm 1 i] using this

/-- What a range check answers when it fails: the lowest nil slot of the range. -/
theorem presentRange_error {m : Memory Bytes32} {a n k : Nat} (h : presentRange m a n = .error k) :
    a ≤ k ∧ k < a + n ∧ Memory.read m k = none ∧ ∀ x, a ≤ x → x < k → Memory.read m x ≠ none := by
  induction n generalizing a with
  | zero => simp [presentRange] at h
  | succ n ih =>
    simp only [presentRange] at h
    split at h
    · rename_i he
      simp only [Except.error.injEq] at h
      subst h
      exact ⟨le_refl _, by omega, he, fun x h1 h2 => by omega⟩
    · rename_i e he
      split at h
      · rename_i k' hk
        simp only [Except.error.injEq] at h
        subst h
        obtain ⟨h1, h2, h3, h4⟩ := ih hk
        refine ⟨by omega, by omega, h3, fun x hx1 hx2 => ?_⟩
        by_cases hx : x = a
        · subst hx; simp [he]
        · exact h4 x (by omega) hx2
      · exact absurd h (by simp)

/-- A range of present slots passes the check, with those slots. -/
theorem presentRange_of_present {m : Memory Bytes32} {a n : Nat} (e : Nat → Bytes32)
    (h : ∀ i, i < n → Memory.read m (a + i) = some (e i)) :
    presentRange m a n = .ok ((List.range n).map e) := by
  induction n generalizing a e with
  | zero => rfl
  | succ n ih =>
    have h0 := h 0 (by omega)
    have := ih (a := a + 1) (fun i => e (i + 1)) (fun i hi => by
      have := h (i + 1) (by omega)
      simpa [Nat.add_assoc, Nat.add_comm 1 i] using this)
    simp only [Nat.add_zero] at h0
    simp [presentRange, h0, this, List.range_succ_eq_map, Function.comp_def]

/-- A range with a nil slot fails the check at its lowest nil slot. -/
theorem presentRange_of_nil {m : Memory Bytes32} {a n k : Nat} (h1 : a ≤ k) (h2 : k < a + n)
    (h3 : Memory.read m k = none) (h4 : ∀ x, a ≤ x → x < k → Memory.read m x ≠ none) :
    presentRange m a n = .error k := by
  cases h : presentRange m a n with
  | ok es =>
    obtain ⟨hl, hr⟩ := presentRange_ok h
    have := hr (k - a) (by omega)
    rw [show a + (k - a) = k by omega, h3] at this
    simp at this
  | error k' =>
    obtain ⟨g1, g2, g3, g4⟩ := presentRange_error h
    rcases Nat.lt_trichotomy k k' with hk | hk | hk
    · exact absurd h3 (g4 k h1 hk)
    · rw [hk]
    · exact absurd g3 (h4 k' g1 hk)

end Sys2Proof.Machine
end

