-- ==== Sys2Proof/Laws/State.lean ====
section
/-! SUPPORT. One lemma per field per update of the state, true by rfl, so that no later proof unfolds an update. -/

namespace Sys2Proof.Machine

variable (s : State)

/-! ### setSlots -/

@[simp] theorem State.setSlots_cfg (m : Memory Bytes32) : (s.setSlots m).cfg = s.cfg := rfl
@[simp] theorem State.setSlots_slots (m : Memory Bytes32) : (s.setSlots m).slots = m := rfl
@[simp] theorem State.setSlots_acc (m : Memory Bytes32) : (s.setSlots m).acc = s.acc := rfl
@[simp] theorem State.setSlots_pos (m : Memory Bytes32) : (s.setSlots m).pos = s.pos := rfl
@[simp] theorem State.setSlots_mlen (m : Memory Bytes32) : (s.setSlots m).mlen = s.mlen := rfl
@[simp] theorem State.setSlots_msg (m : Memory Bytes32) : (s.setSlots m).msg = s.msg := rfl
@[simp] theorem State.setSlots_ieDone (m : Memory Bytes32) : (s.setSlots m).ieDone = s.ieDone := rfl
@[simp] theorem State.setSlots_ieErr (m : Memory Bytes32) : (s.setSlots m).ieErr = s.ieErr := rfl
@[simp] theorem State.setSlots_done (m : Memory Bytes32) : (s.setSlots m).done = s.done := rfl
@[simp] theorem State.setSlots_err (m : Memory Bytes32) : (s.setSlots m).err = s.err := rfl
@[simp] theorem State.setSlots_ecode (m : Memory Bytes32) : (s.setSlots m).ecode = s.ecode := rfl
@[simp] theorem State.setSlots_cmpr (m : Memory Bytes32) : (s.setSlots m).cmpr = s.cmpr := rfl
@[simp] theorem State.setSlots_ecmd (m : Memory Bytes32) : (s.setSlots m).ecmd = s.ecmd := rfl
@[simp] theorem State.setSlots_eidx (m : Memory Bytes32) : (s.setSlots m).eidx = s.eidx := rfl
@[simp] theorem State.setSlots_ridx (m : Memory Bytes32) : (s.setSlots m).ridx = s.ridx := rfl
@[simp] theorem State.setSlots_inflight (m : Memory Bytes32) : (s.setSlots m).inflight = s.inflight := rfl
@[simp] theorem State.setSlots_resets (m : Memory Bytes32) : (s.setSlots m).resets = s.resets := rfl
@[simp] theorem State.setSlots_agenda (m : Memory Bytes32) : (s.setSlots m).agenda = s.agenda := rfl
@[simp] theorem State.setSlots_held (m : Memory Bytes32) : (s.setSlots m).held = s.held := rfl
@[simp] theorem State.setSlots_log (m : Memory Bytes32) : (s.setSlots m).log = s.log := rfl

/-! ### setAcc -/

@[simp] theorem State.setAcc_cfg (v : Option Bytes32) : (s.setAcc v).cfg = s.cfg := rfl
@[simp] theorem State.setAcc_slots (v : Option Bytes32) : (s.setAcc v).slots = s.slots := rfl
@[simp] theorem State.setAcc_acc (v : Option Bytes32) : (s.setAcc v).acc = v := rfl
@[simp] theorem State.setAcc_pos (v : Option Bytes32) : (s.setAcc v).pos = s.pos := rfl
@[simp] theorem State.setAcc_mlen (v : Option Bytes32) : (s.setAcc v).mlen = s.mlen := rfl
@[simp] theorem State.setAcc_msg (v : Option Bytes32) : (s.setAcc v).msg = s.msg := rfl
@[simp] theorem State.setAcc_ieDone (v : Option Bytes32) : (s.setAcc v).ieDone = s.ieDone := rfl
@[simp] theorem State.setAcc_ieErr (v : Option Bytes32) : (s.setAcc v).ieErr = s.ieErr := rfl
@[simp] theorem State.setAcc_done (v : Option Bytes32) : (s.setAcc v).done = s.done := rfl
@[simp] theorem State.setAcc_err (v : Option Bytes32) : (s.setAcc v).err = s.err := rfl
@[simp] theorem State.setAcc_ecode (v : Option Bytes32) : (s.setAcc v).ecode = s.ecode := rfl
@[simp] theorem State.setAcc_cmpr (v : Option Bytes32) : (s.setAcc v).cmpr = s.cmpr := rfl
@[simp] theorem State.setAcc_ecmd (v : Option Bytes32) : (s.setAcc v).ecmd = s.ecmd := rfl
@[simp] theorem State.setAcc_eidx (v : Option Bytes32) : (s.setAcc v).eidx = s.eidx := rfl
@[simp] theorem State.setAcc_ridx (v : Option Bytes32) : (s.setAcc v).ridx = s.ridx := rfl
@[simp] theorem State.setAcc_inflight (v : Option Bytes32) : (s.setAcc v).inflight = s.inflight := rfl
@[simp] theorem State.setAcc_resets (v : Option Bytes32) : (s.setAcc v).resets = s.resets := rfl
@[simp] theorem State.setAcc_agenda (v : Option Bytes32) : (s.setAcc v).agenda = s.agenda := rfl
@[simp] theorem State.setAcc_held (v : Option Bytes32) : (s.setAcc v).held = s.held := rfl
@[simp] theorem State.setAcc_log (v : Option Bytes32) : (s.setAcc v).log = s.log := rfl

@[simp] theorem State.setAcc_slot (v : Option Bytes32) (k : Nat) : (s.setAcc v).slot k = s.slot k := rfl

/-! ### setPos -/

@[simp] theorem State.setPos_cfg (v : Word) : (s.setPos v).cfg = s.cfg := rfl
@[simp] theorem State.setPos_slots (v : Word) : (s.setPos v).slots = s.slots := rfl
@[simp] theorem State.setPos_acc (v : Word) : (s.setPos v).acc = s.acc := rfl
@[simp] theorem State.setPos_pos (v : Word) : (s.setPos v).pos = v := rfl
@[simp] theorem State.setPos_mlen (v : Word) : (s.setPos v).mlen = s.mlen := rfl
@[simp] theorem State.setPos_msg (v : Word) : (s.setPos v).msg = s.msg := rfl
@[simp] theorem State.setPos_ieDone (v : Word) : (s.setPos v).ieDone = s.ieDone := rfl
@[simp] theorem State.setPos_ieErr (v : Word) : (s.setPos v).ieErr = s.ieErr := rfl
@[simp] theorem State.setPos_done (v : Word) : (s.setPos v).done = s.done := rfl
@[simp] theorem State.setPos_err (v : Word) : (s.setPos v).err = s.err := rfl
@[simp] theorem State.setPos_ecode (v : Word) : (s.setPos v).ecode = s.ecode := rfl
@[simp] theorem State.setPos_cmpr (v : Word) : (s.setPos v).cmpr = s.cmpr := rfl
@[simp] theorem State.setPos_ecmd (v : Word) : (s.setPos v).ecmd = s.ecmd := rfl
@[simp] theorem State.setPos_eidx (v : Word) : (s.setPos v).eidx = s.eidx := rfl
@[simp] theorem State.setPos_ridx (v : Word) : (s.setPos v).ridx = s.ridx := rfl
@[simp] theorem State.setPos_inflight (v : Word) : (s.setPos v).inflight = s.inflight := rfl
@[simp] theorem State.setPos_resets (v : Word) : (s.setPos v).resets = s.resets := rfl
@[simp] theorem State.setPos_agenda (v : Word) : (s.setPos v).agenda = s.agenda := rfl
@[simp] theorem State.setPos_held (v : Word) : (s.setPos v).held = s.held := rfl
@[simp] theorem State.setPos_log (v : Word) : (s.setPos v).log = s.log := rfl

@[simp] theorem State.setPos_slot (v : Word) (k : Nat) : (s.setPos v).slot k = s.slot k := rfl

/-! ### setMlen -/

@[simp] theorem State.setMlen_cfg (v : Word) : (s.setMlen v).cfg = s.cfg := rfl
@[simp] theorem State.setMlen_slots (v : Word) : (s.setMlen v).slots = s.slots := rfl
@[simp] theorem State.setMlen_acc (v : Word) : (s.setMlen v).acc = s.acc := rfl
@[simp] theorem State.setMlen_pos (v : Word) : (s.setMlen v).pos = s.pos := rfl
@[simp] theorem State.setMlen_mlen (v : Word) : (s.setMlen v).mlen = v := rfl
@[simp] theorem State.setMlen_msg (v : Word) : (s.setMlen v).msg = s.msg := rfl
@[simp] theorem State.setMlen_ieDone (v : Word) : (s.setMlen v).ieDone = s.ieDone := rfl
@[simp] theorem State.setMlen_ieErr (v : Word) : (s.setMlen v).ieErr = s.ieErr := rfl
@[simp] theorem State.setMlen_done (v : Word) : (s.setMlen v).done = s.done := rfl
@[simp] theorem State.setMlen_err (v : Word) : (s.setMlen v).err = s.err := rfl
@[simp] theorem State.setMlen_ecode (v : Word) : (s.setMlen v).ecode = s.ecode := rfl
@[simp] theorem State.setMlen_cmpr (v : Word) : (s.setMlen v).cmpr = s.cmpr := rfl
@[simp] theorem State.setMlen_ecmd (v : Word) : (s.setMlen v).ecmd = s.ecmd := rfl
@[simp] theorem State.setMlen_eidx (v : Word) : (s.setMlen v).eidx = s.eidx := rfl
@[simp] theorem State.setMlen_ridx (v : Word) : (s.setMlen v).ridx = s.ridx := rfl
@[simp] theorem State.setMlen_inflight (v : Word) : (s.setMlen v).inflight = s.inflight := rfl
@[simp] theorem State.setMlen_resets (v : Word) : (s.setMlen v).resets = s.resets := rfl
@[simp] theorem State.setMlen_agenda (v : Word) : (s.setMlen v).agenda = s.agenda := rfl
@[simp] theorem State.setMlen_held (v : Word) : (s.setMlen v).held = s.held := rfl
@[simp] theorem State.setMlen_log (v : Word) : (s.setMlen v).log = s.log := rfl

@[simp] theorem State.setMlen_slot (v : Word) (k : Nat) : (s.setMlen v).slot k = s.slot k := rfl

/-! ### setMsg -/

@[simp] theorem State.setMsg_cfg (m : Memory Byte) : (s.setMsg m).cfg = s.cfg := rfl
@[simp] theorem State.setMsg_slots (m : Memory Byte) : (s.setMsg m).slots = s.slots := rfl
@[simp] theorem State.setMsg_acc (m : Memory Byte) : (s.setMsg m).acc = s.acc := rfl
@[simp] theorem State.setMsg_pos (m : Memory Byte) : (s.setMsg m).pos = s.pos := rfl
@[simp] theorem State.setMsg_mlen (m : Memory Byte) : (s.setMsg m).mlen = s.mlen := rfl
@[simp] theorem State.setMsg_msg (m : Memory Byte) : (s.setMsg m).msg = m := rfl
@[simp] theorem State.setMsg_ieDone (m : Memory Byte) : (s.setMsg m).ieDone = s.ieDone := rfl
@[simp] theorem State.setMsg_ieErr (m : Memory Byte) : (s.setMsg m).ieErr = s.ieErr := rfl
@[simp] theorem State.setMsg_done (m : Memory Byte) : (s.setMsg m).done = s.done := rfl
@[simp] theorem State.setMsg_err (m : Memory Byte) : (s.setMsg m).err = s.err := rfl
@[simp] theorem State.setMsg_ecode (m : Memory Byte) : (s.setMsg m).ecode = s.ecode := rfl
@[simp] theorem State.setMsg_cmpr (m : Memory Byte) : (s.setMsg m).cmpr = s.cmpr := rfl
@[simp] theorem State.setMsg_ecmd (m : Memory Byte) : (s.setMsg m).ecmd = s.ecmd := rfl
@[simp] theorem State.setMsg_eidx (m : Memory Byte) : (s.setMsg m).eidx = s.eidx := rfl
@[simp] theorem State.setMsg_ridx (m : Memory Byte) : (s.setMsg m).ridx = s.ridx := rfl
@[simp] theorem State.setMsg_inflight (m : Memory Byte) : (s.setMsg m).inflight = s.inflight := rfl
@[simp] theorem State.setMsg_resets (m : Memory Byte) : (s.setMsg m).resets = s.resets := rfl
@[simp] theorem State.setMsg_agenda (m : Memory Byte) : (s.setMsg m).agenda = s.agenda := rfl
@[simp] theorem State.setMsg_held (m : Memory Byte) : (s.setMsg m).held = s.held := rfl
@[simp] theorem State.setMsg_log (m : Memory Byte) : (s.setMsg m).log = s.log := rfl

@[simp] theorem State.setMsg_slot (m : Memory Byte) (k : Nat) : (s.setMsg m).slot k = s.slot k := rfl

/-! ### setCmpr -/

@[simp] theorem State.setCmpr_cfg (v : BitVec 2) : (s.setCmpr v).cfg = s.cfg := rfl
@[simp] theorem State.setCmpr_slots (v : BitVec 2) : (s.setCmpr v).slots = s.slots := rfl
@[simp] theorem State.setCmpr_acc (v : BitVec 2) : (s.setCmpr v).acc = s.acc := rfl
@[simp] theorem State.setCmpr_pos (v : BitVec 2) : (s.setCmpr v).pos = s.pos := rfl
@[simp] theorem State.setCmpr_mlen (v : BitVec 2) : (s.setCmpr v).mlen = s.mlen := rfl
@[simp] theorem State.setCmpr_msg (v : BitVec 2) : (s.setCmpr v).msg = s.msg := rfl
@[simp] theorem State.setCmpr_ieDone (v : BitVec 2) : (s.setCmpr v).ieDone = s.ieDone := rfl
@[simp] theorem State.setCmpr_ieErr (v : BitVec 2) : (s.setCmpr v).ieErr = s.ieErr := rfl
@[simp] theorem State.setCmpr_done (v : BitVec 2) : (s.setCmpr v).done = s.done := rfl
@[simp] theorem State.setCmpr_err (v : BitVec 2) : (s.setCmpr v).err = s.err := rfl
@[simp] theorem State.setCmpr_ecode (v : BitVec 2) : (s.setCmpr v).ecode = s.ecode := rfl
@[simp] theorem State.setCmpr_cmpr (v : BitVec 2) : (s.setCmpr v).cmpr = v := rfl
@[simp] theorem State.setCmpr_ecmd (v : BitVec 2) : (s.setCmpr v).ecmd = s.ecmd := rfl
@[simp] theorem State.setCmpr_eidx (v : BitVec 2) : (s.setCmpr v).eidx = s.eidx := rfl
@[simp] theorem State.setCmpr_ridx (v : BitVec 2) : (s.setCmpr v).ridx = s.ridx := rfl
@[simp] theorem State.setCmpr_inflight (v : BitVec 2) : (s.setCmpr v).inflight = s.inflight := rfl
@[simp] theorem State.setCmpr_resets (v : BitVec 2) : (s.setCmpr v).resets = s.resets := rfl
@[simp] theorem State.setCmpr_agenda (v : BitVec 2) : (s.setCmpr v).agenda = s.agenda := rfl
@[simp] theorem State.setCmpr_held (v : BitVec 2) : (s.setCmpr v).held = s.held := rfl
@[simp] theorem State.setCmpr_log (v : BitVec 2) : (s.setCmpr v).log = s.log := rfl

@[simp] theorem State.setCmpr_slot (v : BitVec 2) (k : Nat) : (s.setCmpr v).slot k = s.slot k := rfl

/-! ### setRidx -/

@[simp] theorem State.setRidx_cfg (v : BitVec 14) : (s.setRidx v).cfg = s.cfg := rfl
@[simp] theorem State.setRidx_slots (v : BitVec 14) : (s.setRidx v).slots = s.slots := rfl
@[simp] theorem State.setRidx_acc (v : BitVec 14) : (s.setRidx v).acc = s.acc := rfl
@[simp] theorem State.setRidx_pos (v : BitVec 14) : (s.setRidx v).pos = s.pos := rfl
@[simp] theorem State.setRidx_mlen (v : BitVec 14) : (s.setRidx v).mlen = s.mlen := rfl
@[simp] theorem State.setRidx_msg (v : BitVec 14) : (s.setRidx v).msg = s.msg := rfl
@[simp] theorem State.setRidx_ieDone (v : BitVec 14) : (s.setRidx v).ieDone = s.ieDone := rfl
@[simp] theorem State.setRidx_ieErr (v : BitVec 14) : (s.setRidx v).ieErr = s.ieErr := rfl
@[simp] theorem State.setRidx_done (v : BitVec 14) : (s.setRidx v).done = s.done := rfl
@[simp] theorem State.setRidx_err (v : BitVec 14) : (s.setRidx v).err = s.err := rfl
@[simp] theorem State.setRidx_ecode (v : BitVec 14) : (s.setRidx v).ecode = s.ecode := rfl
@[simp] theorem State.setRidx_cmpr (v : BitVec 14) : (s.setRidx v).cmpr = s.cmpr := rfl
@[simp] theorem State.setRidx_ecmd (v : BitVec 14) : (s.setRidx v).ecmd = s.ecmd := rfl
@[simp] theorem State.setRidx_eidx (v : BitVec 14) : (s.setRidx v).eidx = s.eidx := rfl
@[simp] theorem State.setRidx_ridx (v : BitVec 14) : (s.setRidx v).ridx = v := rfl
@[simp] theorem State.setRidx_inflight (v : BitVec 14) : (s.setRidx v).inflight = s.inflight := rfl
@[simp] theorem State.setRidx_resets (v : BitVec 14) : (s.setRidx v).resets = s.resets := rfl
@[simp] theorem State.setRidx_agenda (v : BitVec 14) : (s.setRidx v).agenda = s.agenda := rfl
@[simp] theorem State.setRidx_held (v : BitVec 14) : (s.setRidx v).held = s.held := rfl
@[simp] theorem State.setRidx_log (v : BitVec 14) : (s.setRidx v).log = s.log := rfl

@[simp] theorem State.setRidx_slot (v : BitVec 14) (k : Nat) : (s.setRidx v).slot k = s.slot k := rfl

/-! ### setDone -/

@[simp] theorem State.setDone_cfg (b : Bool) : (s.setDone b).cfg = s.cfg := rfl
@[simp] theorem State.setDone_slots (b : Bool) : (s.setDone b).slots = s.slots := rfl
@[simp] theorem State.setDone_acc (b : Bool) : (s.setDone b).acc = s.acc := rfl
@[simp] theorem State.setDone_pos (b : Bool) : (s.setDone b).pos = s.pos := rfl
@[simp] theorem State.setDone_mlen (b : Bool) : (s.setDone b).mlen = s.mlen := rfl
@[simp] theorem State.setDone_msg (b : Bool) : (s.setDone b).msg = s.msg := rfl
@[simp] theorem State.setDone_ieDone (b : Bool) : (s.setDone b).ieDone = s.ieDone := rfl
@[simp] theorem State.setDone_ieErr (b : Bool) : (s.setDone b).ieErr = s.ieErr := rfl
@[simp] theorem State.setDone_done (b : Bool) : (s.setDone b).done = b := rfl
@[simp] theorem State.setDone_err (b : Bool) : (s.setDone b).err = s.err := rfl
@[simp] theorem State.setDone_ecode (b : Bool) : (s.setDone b).ecode = s.ecode := rfl
@[simp] theorem State.setDone_cmpr (b : Bool) : (s.setDone b).cmpr = s.cmpr := rfl
@[simp] theorem State.setDone_ecmd (b : Bool) : (s.setDone b).ecmd = s.ecmd := rfl
@[simp] theorem State.setDone_eidx (b : Bool) : (s.setDone b).eidx = s.eidx := rfl
@[simp] theorem State.setDone_ridx (b : Bool) : (s.setDone b).ridx = s.ridx := rfl
@[simp] theorem State.setDone_inflight (b : Bool) : (s.setDone b).inflight = s.inflight := rfl
@[simp] theorem State.setDone_resets (b : Bool) : (s.setDone b).resets = s.resets := rfl
@[simp] theorem State.setDone_agenda (b : Bool) : (s.setDone b).agenda = s.agenda := rfl
@[simp] theorem State.setDone_held (b : Bool) : (s.setDone b).held = s.held := rfl
@[simp] theorem State.setDone_log (b : Bool) : (s.setDone b).log = s.log := rfl

@[simp] theorem State.setDone_slot (b : Bool) (k : Nat) : (s.setDone b).slot k = s.slot k := rfl

/-! ### setCtrl -/

@[simp] theorem State.setCtrl_cfg (v : Word) : (s.setCtrl v).cfg = s.cfg := rfl
@[simp] theorem State.setCtrl_slots (v : Word) : (s.setCtrl v).slots = s.slots := rfl
@[simp] theorem State.setCtrl_acc (v : Word) : (s.setCtrl v).acc = s.acc := rfl
@[simp] theorem State.setCtrl_pos (v : Word) : (s.setCtrl v).pos = s.pos := rfl
@[simp] theorem State.setCtrl_mlen (v : Word) : (s.setCtrl v).mlen = s.mlen := rfl
@[simp] theorem State.setCtrl_msg (v : Word) : (s.setCtrl v).msg = s.msg := rfl
@[simp] theorem State.setCtrl_ieDone (v : Word) : (s.setCtrl v).ieDone = v.getLsbD 0 := rfl
@[simp] theorem State.setCtrl_ieErr (v : Word) : (s.setCtrl v).ieErr = v.getLsbD 1 := rfl
@[simp] theorem State.setCtrl_done (v : Word) : (s.setCtrl v).done = s.done := rfl
@[simp] theorem State.setCtrl_err (v : Word) : (s.setCtrl v).err = s.err := rfl
@[simp] theorem State.setCtrl_ecode (v : Word) : (s.setCtrl v).ecode = s.ecode := rfl
@[simp] theorem State.setCtrl_cmpr (v : Word) : (s.setCtrl v).cmpr = s.cmpr := rfl
@[simp] theorem State.setCtrl_ecmd (v : Word) : (s.setCtrl v).ecmd = s.ecmd := rfl
@[simp] theorem State.setCtrl_eidx (v : Word) : (s.setCtrl v).eidx = s.eidx := rfl
@[simp] theorem State.setCtrl_ridx (v : Word) : (s.setCtrl v).ridx = s.ridx := rfl
@[simp] theorem State.setCtrl_inflight (v : Word) : (s.setCtrl v).inflight = s.inflight := rfl
@[simp] theorem State.setCtrl_resets (v : Word) : (s.setCtrl v).resets = s.resets := rfl
@[simp] theorem State.setCtrl_agenda (v : Word) : (s.setCtrl v).agenda = s.agenda := rfl
@[simp] theorem State.setCtrl_held (v : Word) : (s.setCtrl v).held = s.held := rfl
@[simp] theorem State.setCtrl_log (v : Word) : (s.setCtrl v).log = s.log := rfl

@[simp] theorem State.setCtrl_slot (v : Word) (k : Nat) : (s.setCtrl v).slot k = s.slot k := rfl

/-! ### setInflight -/

@[simp] theorem State.setInflight_cfg (w : Option Word) : (s.setInflight w).cfg = s.cfg := rfl
@[simp] theorem State.setInflight_slots (w : Option Word) : (s.setInflight w).slots = s.slots := rfl
@[simp] theorem State.setInflight_acc (w : Option Word) : (s.setInflight w).acc = s.acc := rfl
@[simp] theorem State.setInflight_pos (w : Option Word) : (s.setInflight w).pos = s.pos := rfl
@[simp] theorem State.setInflight_mlen (w : Option Word) : (s.setInflight w).mlen = s.mlen := rfl
@[simp] theorem State.setInflight_msg (w : Option Word) : (s.setInflight w).msg = s.msg := rfl
@[simp] theorem State.setInflight_ieDone (w : Option Word) : (s.setInflight w).ieDone = s.ieDone := rfl
@[simp] theorem State.setInflight_ieErr (w : Option Word) : (s.setInflight w).ieErr = s.ieErr := rfl
@[simp] theorem State.setInflight_done (w : Option Word) : (s.setInflight w).done = s.done := rfl
@[simp] theorem State.setInflight_err (w : Option Word) : (s.setInflight w).err = s.err := rfl
@[simp] theorem State.setInflight_ecode (w : Option Word) : (s.setInflight w).ecode = s.ecode := rfl
@[simp] theorem State.setInflight_cmpr (w : Option Word) : (s.setInflight w).cmpr = s.cmpr := rfl
@[simp] theorem State.setInflight_ecmd (w : Option Word) : (s.setInflight w).ecmd = s.ecmd := rfl
@[simp] theorem State.setInflight_eidx (w : Option Word) : (s.setInflight w).eidx = s.eidx := rfl
@[simp] theorem State.setInflight_ridx (w : Option Word) : (s.setInflight w).ridx = s.ridx := rfl
@[simp] theorem State.setInflight_inflight (w : Option Word) : (s.setInflight w).inflight = w := rfl
@[simp] theorem State.setInflight_resets (w : Option Word) : (s.setInflight w).resets = s.resets := rfl
@[simp] theorem State.setInflight_agenda (w : Option Word) : (s.setInflight w).agenda = s.agenda := rfl
@[simp] theorem State.setInflight_held (w : Option Word) : (s.setInflight w).held = s.held := rfl
@[simp] theorem State.setInflight_log (w : Option Word) : (s.setInflight w).log = s.log := rfl

@[simp] theorem State.setInflight_slot (w : Option Word) (k : Nat) : (s.setInflight w).slot k = s.slot k := rfl

/-! ### setAgenda -/

@[simp] theorem State.setAgenda_cfg (l : List Turn) : (s.setAgenda l).cfg = s.cfg := rfl
@[simp] theorem State.setAgenda_slots (l : List Turn) : (s.setAgenda l).slots = s.slots := rfl
@[simp] theorem State.setAgenda_acc (l : List Turn) : (s.setAgenda l).acc = s.acc := rfl
@[simp] theorem State.setAgenda_pos (l : List Turn) : (s.setAgenda l).pos = s.pos := rfl
@[simp] theorem State.setAgenda_mlen (l : List Turn) : (s.setAgenda l).mlen = s.mlen := rfl
@[simp] theorem State.setAgenda_msg (l : List Turn) : (s.setAgenda l).msg = s.msg := rfl
@[simp] theorem State.setAgenda_ieDone (l : List Turn) : (s.setAgenda l).ieDone = s.ieDone := rfl
@[simp] theorem State.setAgenda_ieErr (l : List Turn) : (s.setAgenda l).ieErr = s.ieErr := rfl
@[simp] theorem State.setAgenda_done (l : List Turn) : (s.setAgenda l).done = s.done := rfl
@[simp] theorem State.setAgenda_err (l : List Turn) : (s.setAgenda l).err = s.err := rfl
@[simp] theorem State.setAgenda_ecode (l : List Turn) : (s.setAgenda l).ecode = s.ecode := rfl
@[simp] theorem State.setAgenda_cmpr (l : List Turn) : (s.setAgenda l).cmpr = s.cmpr := rfl
@[simp] theorem State.setAgenda_ecmd (l : List Turn) : (s.setAgenda l).ecmd = s.ecmd := rfl
@[simp] theorem State.setAgenda_eidx (l : List Turn) : (s.setAgenda l).eidx = s.eidx := rfl
@[simp] theorem State.setAgenda_ridx (l : List Turn) : (s.setAgenda l).ridx = s.ridx := rfl
@[simp] theorem State.setAgenda_inflight (l : List Turn) : (s.setAgenda l).inflight = s.inflight := rfl
@[simp] theorem State.setAgenda_resets (l : List Turn) : (s.setAgenda l).resets = s.resets := rfl
@[simp] theorem State.setAgenda_agenda (l : List Turn) : (s.setAgenda l).agenda = l := rfl
@[simp] theorem State.setAgenda_held (l : List Turn) : (s.setAgenda l).held = s.held := rfl
@[simp] theorem State.setAgenda_log (l : List Turn) : (s.setAgenda l).log = s.log := rfl

@[simp] theorem State.setAgenda_slot (l : List Turn) (k : Nat) : (s.setAgenda l).slot k = s.slot k := rfl

/-! ### setHeld -/

@[simp] theorem State.setHeld_cfg (t : Option HostTxn) : (s.setHeld t).cfg = s.cfg := rfl
@[simp] theorem State.setHeld_slots (t : Option HostTxn) : (s.setHeld t).slots = s.slots := rfl
@[simp] theorem State.setHeld_acc (t : Option HostTxn) : (s.setHeld t).acc = s.acc := rfl
@[simp] theorem State.setHeld_pos (t : Option HostTxn) : (s.setHeld t).pos = s.pos := rfl
@[simp] theorem State.setHeld_mlen (t : Option HostTxn) : (s.setHeld t).mlen = s.mlen := rfl
@[simp] theorem State.setHeld_msg (t : Option HostTxn) : (s.setHeld t).msg = s.msg := rfl
@[simp] theorem State.setHeld_ieDone (t : Option HostTxn) : (s.setHeld t).ieDone = s.ieDone := rfl
@[simp] theorem State.setHeld_ieErr (t : Option HostTxn) : (s.setHeld t).ieErr = s.ieErr := rfl
@[simp] theorem State.setHeld_done (t : Option HostTxn) : (s.setHeld t).done = s.done := rfl
@[simp] theorem State.setHeld_err (t : Option HostTxn) : (s.setHeld t).err = s.err := rfl
@[simp] theorem State.setHeld_ecode (t : Option HostTxn) : (s.setHeld t).ecode = s.ecode := rfl
@[simp] theorem State.setHeld_cmpr (t : Option HostTxn) : (s.setHeld t).cmpr = s.cmpr := rfl
@[simp] theorem State.setHeld_ecmd (t : Option HostTxn) : (s.setHeld t).ecmd = s.ecmd := rfl
@[simp] theorem State.setHeld_eidx (t : Option HostTxn) : (s.setHeld t).eidx = s.eidx := rfl
@[simp] theorem State.setHeld_ridx (t : Option HostTxn) : (s.setHeld t).ridx = s.ridx := rfl
@[simp] theorem State.setHeld_inflight (t : Option HostTxn) : (s.setHeld t).inflight = s.inflight := rfl
@[simp] theorem State.setHeld_resets (t : Option HostTxn) : (s.setHeld t).resets = s.resets := rfl
@[simp] theorem State.setHeld_agenda (t : Option HostTxn) : (s.setHeld t).agenda = s.agenda := rfl
@[simp] theorem State.setHeld_held (t : Option HostTxn) : (s.setHeld t).held = t := rfl
@[simp] theorem State.setHeld_log (t : Option HostTxn) : (s.setHeld t).log = s.log := rfl

@[simp] theorem State.setHeld_slot (t : Option HostTxn) (k : Nat) : (s.setHeld t).slot k = s.slot k := rfl

/-! ### record -/

@[simp] theorem State.record_cfg (t : HostTxn) (r : HostResp) : (s.record t r).cfg = s.cfg := rfl
@[simp] theorem State.record_slots (t : HostTxn) (r : HostResp) : (s.record t r).slots = s.slots := rfl
@[simp] theorem State.record_acc (t : HostTxn) (r : HostResp) : (s.record t r).acc = s.acc := rfl
@[simp] theorem State.record_pos (t : HostTxn) (r : HostResp) : (s.record t r).pos = s.pos := rfl
@[simp] theorem State.record_mlen (t : HostTxn) (r : HostResp) : (s.record t r).mlen = s.mlen := rfl
@[simp] theorem State.record_msg (t : HostTxn) (r : HostResp) : (s.record t r).msg = s.msg := rfl
@[simp] theorem State.record_ieDone (t : HostTxn) (r : HostResp) : (s.record t r).ieDone = s.ieDone := rfl
@[simp] theorem State.record_ieErr (t : HostTxn) (r : HostResp) : (s.record t r).ieErr = s.ieErr := rfl
@[simp] theorem State.record_done (t : HostTxn) (r : HostResp) : (s.record t r).done = s.done := rfl
@[simp] theorem State.record_err (t : HostTxn) (r : HostResp) : (s.record t r).err = s.err := rfl
@[simp] theorem State.record_ecode (t : HostTxn) (r : HostResp) : (s.record t r).ecode = s.ecode := rfl
@[simp] theorem State.record_cmpr (t : HostTxn) (r : HostResp) : (s.record t r).cmpr = s.cmpr := rfl
@[simp] theorem State.record_ecmd (t : HostTxn) (r : HostResp) : (s.record t r).ecmd = s.ecmd := rfl
@[simp] theorem State.record_eidx (t : HostTxn) (r : HostResp) : (s.record t r).eidx = s.eidx := rfl
@[simp] theorem State.record_ridx (t : HostTxn) (r : HostResp) : (s.record t r).ridx = s.ridx := rfl
@[simp] theorem State.record_inflight (t : HostTxn) (r : HostResp) : (s.record t r).inflight = s.inflight := rfl
@[simp] theorem State.record_resets (t : HostTxn) (r : HostResp) : (s.record t r).resets = s.resets := rfl
@[simp] theorem State.record_agenda (t : HostTxn) (r : HostResp) : (s.record t r).agenda = s.agenda := rfl
@[simp] theorem State.record_held (t : HostTxn) (r : HostResp) : (s.record t r).held = s.held := rfl
@[simp] theorem State.record_log (t : HostTxn) (r : HostResp) : (s.record t r).log = (t, r) :: s.log := rfl

@[simp] theorem State.record_slot (t : HostTxn) (r : HostResp) (k : Nat) : (s.record t r).slot k = s.slot k := rfl

/-! ### takeFault -/

@[simp] theorem State.takeFault_cfg (c : FaultCause) (w : Word) : (s.takeFault c w).cfg = s.cfg := rfl
@[simp] theorem State.takeFault_slots (c : FaultCause) (w : Word) : (s.takeFault c w).slots = s.slots := rfl
@[simp] theorem State.takeFault_acc (c : FaultCause) (w : Word) : (s.takeFault c w).acc = s.acc := rfl
@[simp] theorem State.takeFault_pos (c : FaultCause) (w : Word) : (s.takeFault c w).pos = s.pos := rfl
@[simp] theorem State.takeFault_mlen (c : FaultCause) (w : Word) : (s.takeFault c w).mlen = s.mlen := rfl
@[simp] theorem State.takeFault_msg (c : FaultCause) (w : Word) : (s.takeFault c w).msg = s.msg := rfl
@[simp] theorem State.takeFault_ieDone (c : FaultCause) (w : Word) : (s.takeFault c w).ieDone = s.ieDone := rfl
@[simp] theorem State.takeFault_ieErr (c : FaultCause) (w : Word) : (s.takeFault c w).ieErr = s.ieErr := rfl
@[simp] theorem State.takeFault_done (c : FaultCause) (w : Word) : (s.takeFault c w).done = s.done := rfl
@[simp] theorem State.takeFault_err (c : FaultCause) (w : Word) : (s.takeFault c w).err = true := rfl
@[simp] theorem State.takeFault_ecode (c : FaultCause) (w : Word) : (s.takeFault c w).ecode = c.code := rfl
@[simp] theorem State.takeFault_cmpr (c : FaultCause) (w : Word) : (s.takeFault c w).cmpr = s.cmpr := rfl
@[simp] theorem State.takeFault_ecmd (c : FaultCause) (w : Word) : (s.takeFault c w).ecmd = w := rfl
@[simp] theorem State.takeFault_eidx (c : FaultCause) (w : Word) : (s.takeFault c w).eidx = c.info := rfl
@[simp] theorem State.takeFault_ridx (c : FaultCause) (w : Word) : (s.takeFault c w).ridx = s.ridx := rfl
@[simp] theorem State.takeFault_inflight (c : FaultCause) (w : Word) : (s.takeFault c w).inflight = s.inflight := rfl
@[simp] theorem State.takeFault_resets (c : FaultCause) (w : Word) : (s.takeFault c w).resets = s.resets := rfl
@[simp] theorem State.takeFault_agenda (c : FaultCause) (w : Word) : (s.takeFault c w).agenda = s.agenda := rfl
@[simp] theorem State.takeFault_held (c : FaultCause) (w : Word) : (s.takeFault c w).held = s.held := rfl
@[simp] theorem State.takeFault_log (c : FaultCause) (w : Word) : (s.takeFault c w).log = s.log := rfl

@[simp] theorem State.takeFault_slot (c : FaultCause) (w : Word) (k : Nat) : (s.takeFault c w).slot k = s.slot k := rfl

/-! ### acknowledge -/

@[simp] theorem State.acknowledge_cfg : s.acknowledge.cfg = s.cfg := rfl
@[simp] theorem State.acknowledge_slots : s.acknowledge.slots = s.slots := rfl
@[simp] theorem State.acknowledge_acc : s.acknowledge.acc = s.acc := rfl
@[simp] theorem State.acknowledge_pos : s.acknowledge.pos = s.pos := rfl
@[simp] theorem State.acknowledge_mlen : s.acknowledge.mlen = s.mlen := rfl
@[simp] theorem State.acknowledge_msg : s.acknowledge.msg = s.msg := rfl
@[simp] theorem State.acknowledge_ieDone : s.acknowledge.ieDone = s.ieDone := rfl
@[simp] theorem State.acknowledge_ieErr : s.acknowledge.ieErr = s.ieErr := rfl
@[simp] theorem State.acknowledge_done : s.acknowledge.done = s.done := rfl
@[simp] theorem State.acknowledge_err : s.acknowledge.err = false := rfl
@[simp] theorem State.acknowledge_ecode : s.acknowledge.ecode = 0 := rfl
@[simp] theorem State.acknowledge_cmpr : s.acknowledge.cmpr = s.cmpr := rfl
@[simp] theorem State.acknowledge_ecmd : s.acknowledge.ecmd = s.ecmd := rfl
@[simp] theorem State.acknowledge_eidx : s.acknowledge.eidx = s.eidx := rfl
@[simp] theorem State.acknowledge_ridx : s.acknowledge.ridx = s.ridx := rfl
@[simp] theorem State.acknowledge_inflight : s.acknowledge.inflight = s.inflight := rfl
@[simp] theorem State.acknowledge_resets : s.acknowledge.resets = s.resets := rfl
@[simp] theorem State.acknowledge_agenda : s.acknowledge.agenda = s.agenda := rfl
@[simp] theorem State.acknowledge_held : s.acknowledge.held = s.held := rfl
@[simp] theorem State.acknowledge_log : s.acknowledge.log = s.log := rfl

@[simp] theorem State.acknowledge_slot (k : Nat) : s.acknowledge.slot k = s.slot k := rfl

/-! ### issue -/

@[simp] theorem State.issue_cfg (w : Word) : (s.issue w).cfg = s.cfg := rfl
@[simp] theorem State.issue_slots (w : Word) : (s.issue w).slots = s.slots := rfl
@[simp] theorem State.issue_acc (w : Word) : (s.issue w).acc = s.acc := rfl
@[simp] theorem State.issue_pos (w : Word) : (s.issue w).pos = s.pos := rfl
@[simp] theorem State.issue_mlen (w : Word) : (s.issue w).mlen = s.mlen := rfl
@[simp] theorem State.issue_msg (w : Word) : (s.issue w).msg = s.msg := rfl
@[simp] theorem State.issue_ieDone (w : Word) : (s.issue w).ieDone = s.ieDone := rfl
@[simp] theorem State.issue_ieErr (w : Word) : (s.issue w).ieErr = s.ieErr := rfl
@[simp] theorem State.issue_done (w : Word) : (s.issue w).done = false := rfl
@[simp] theorem State.issue_err (w : Word) : (s.issue w).err = s.err := rfl
@[simp] theorem State.issue_ecode (w : Word) : (s.issue w).ecode = s.ecode := rfl
@[simp] theorem State.issue_cmpr (w : Word) : (s.issue w).cmpr = s.cmpr := rfl
@[simp] theorem State.issue_ecmd (w : Word) : (s.issue w).ecmd = s.ecmd := rfl
@[simp] theorem State.issue_eidx (w : Word) : (s.issue w).eidx = s.eidx := rfl
@[simp] theorem State.issue_ridx (w : Word) : (s.issue w).ridx = s.ridx := rfl
@[simp] theorem State.issue_inflight (w : Word) : (s.issue w).inflight = some w := rfl
@[simp] theorem State.issue_resets (w : Word) : (s.issue w).resets = s.resets := rfl
@[simp] theorem State.issue_agenda (w : Word) : (s.issue w).agenda = s.agenda := rfl
@[simp] theorem State.issue_held (w : Word) : (s.issue w).held = s.held := rfl
@[simp] theorem State.issue_log (w : Word) : (s.issue w).log = s.log := rfl

@[simp] theorem State.issue_slot (w : Word) (k : Nat) : (s.issue w).slot k = s.slot k := rfl

/-! ### hardReset -/

@[simp] theorem State.hardReset_cfg : s.hardReset.cfg = s.cfg := rfl
@[simp] theorem State.hardReset_slots : s.hardReset.slots = [] := rfl
@[simp] theorem State.hardReset_acc : s.hardReset.acc = none := rfl
@[simp] theorem State.hardReset_pos : s.hardReset.pos = 0 := rfl
@[simp] theorem State.hardReset_mlen : s.hardReset.mlen = 0 := rfl
@[simp] theorem State.hardReset_msg : s.hardReset.msg = [] := rfl
@[simp] theorem State.hardReset_ieDone : s.hardReset.ieDone = false := rfl
@[simp] theorem State.hardReset_ieErr : s.hardReset.ieErr = false := rfl
@[simp] theorem State.hardReset_done : s.hardReset.done = false := rfl
@[simp] theorem State.hardReset_err : s.hardReset.err = false := rfl
@[simp] theorem State.hardReset_ecode : s.hardReset.ecode = 0 := rfl
@[simp] theorem State.hardReset_cmpr : s.hardReset.cmpr = 0b10 := rfl
@[simp] theorem State.hardReset_ecmd : s.hardReset.ecmd = 0 := rfl
@[simp] theorem State.hardReset_eidx : s.hardReset.eidx = 0 := rfl
@[simp] theorem State.hardReset_ridx : s.hardReset.ridx = 0 := rfl
@[simp] theorem State.hardReset_inflight : s.hardReset.inflight = none := rfl
@[simp] theorem State.hardReset_resets : s.hardReset.resets = s.resets + 1 := rfl
@[simp] theorem State.hardReset_agenda : s.hardReset.agenda = s.agenda := rfl
@[simp] theorem State.hardReset_held : s.hardReset.held = none := rfl
@[simp] theorem State.hardReset_log : s.hardReset.log = s.log := rfl

@[simp] theorem State.setSlots_slot (m : Memory Bytes32) (k : Nat) :
    (s.setSlots m).slot k = Memory.read m k := rfl

@[simp] theorem State.hardReset_slot (k : Nat) : s.hardReset.slot k = none := rfl

end Sys2Proof.Machine
end

