-- ==== Sys2Proof/Laws/Build.lean ====
section
/-! SUPPORT. What BUILD's operations do: the padded leaf count, the pass, the store. -/

namespace Sys2Proof.Machine

theorem nextPow2_pos (n : Nat) : 0 < nextPow2 n := by
  unfold nextPow2; split <;> positivity

theorem nextPow2_eq_pow (n : Nat) : ∃ k, nextPow2 n = 2 ^ k := by
  unfold nextPow2
  split
  · exact ⟨0, rfl⟩
  · exact ⟨_, rfl⟩

theorem le_nextPow2 (n : Nat) : n ≤ nextPow2 n := by
  unfold nextPow2
  split
  · assumption
  · rename_i h
    have := Nat.lt_log2_self (n := n - 1)
    omega

/-- What `k` pairs of the pass from pair `j` leave in a slot that is no parent of theirs: what was there. -/
theorem buildPass_read_other (c : Config) (b p k j : Nat) (m : Memory Bytes32) (x : Nat)
    (h : x < b + p + j ∨ b + p + j + k ≤ x) :
    Memory.read (buildPass c b p k j m) x = Memory.read m x := by
  induction k generalizing j m with
  | zero => rfl
  | succ k ih =>
    rw [buildPass, ih _ _ (by omega), Memory.read_put, if_neg (by omega)]

/-- What the pass leaves in the parent of each pair: the parent of what it leaves in the pair. -/
theorem buildPass_read_parent (c : Config) (b p k j : Nat) (m : Memory Bytes32) (i : Nat)
    (hj : j ≤ i) (hk : i < j + k) (hp : i + 1 < p) :
    Memory.read (buildPass c b p k j m) (b + p + i) =
      parentNode c (Memory.read (buildPass c b p k j m) (b + 2 * i))
        (Memory.read (buildPass c b p k j m) (b + 2 * i + 1)) := by
  induction k generalizing j m with
  | zero => omega
  | succ k ih =>
    by_cases hij : i = j
    · subst hij
      rw [buildPass, buildPass_read_other _ _ _ _ _ _ _ (by omega),
        buildPass_read_other _ _ _ _ _ _ _ (by omega), buildPass_read_other _ _ _ _ _ _ _ (by omega)]
      rw [Memory.read_put, Memory.read_put, Memory.read_put, if_pos rfl, if_neg (by omega), if_neg (by omega)]
    · rw [buildPass]
      exact ih _ _ (by omega) (by omega)

theorem wf_buildPass (c : Config) (b p k j : Nat) {m : Memory Bytes32} (h : Memory.wf m = true) :
    Memory.wf (buildPass c b p k j m) = true := by
  induction k generalizing j m with
  | zero => exact h
  | succ k ih => exact ih _ (Memory.wf_put _ _ h)

/-- The store keeps the leaves and everything outside itself. -/
theorem buildStore_read_other (c : Config) (b n : Nat) (m : Memory Bytes32) (x : Nat)
    (h : x < b + n ∨ b + 2 * nextPow2 n - 1 ≤ x) :
    Memory.read (buildStore c b n m) x = Memory.read m x := by
  have h1 := nextPow2_pos n
  have h2 := le_nextPow2 n
  rw [buildStore, buildPass_read_other _ _ _ _ _ _ _ (by omega), Memory.read_clear, if_neg (by omega)]

/-- The rest of level 0 is nil. -/
theorem buildStore_read_padding (c : Config) (b n : Nat) (m : Memory Bytes32) (x : Nat)
    (h1 : b + n ≤ x) (h2 : x < b + nextPow2 n) :
    Memory.read (buildStore c b n m) x = none := by
  have h3 := le_nextPow2 n
  rw [buildStore, buildPass_read_other _ _ _ _ _ _ _ (by omega), Memory.read_clear, if_pos (by omega)]

/-- Every other node is the parent of its two children. -/
theorem buildStore_read_parent (c : Config) (b n : Nat) (m : Memory Bytes32) (i : Nat)
    (h : i + 1 < nextPow2 n) :
    Memory.read (buildStore c b n m) (b + nextPow2 n + i) =
      parentNode c (Memory.read (buildStore c b n m) (b + 2 * i))
        (Memory.read (buildStore c b n m) (b + 2 * i + 1)) :=
  buildPass_read_parent _ _ _ _ _ _ _ (Nat.zero_le _) (by omega) h

theorem wf_buildStore (c : Config) (b n : Nat) {m : Memory Bytes32} (h : Memory.wf m = true) :
    Memory.wf (buildStore c b n m) = true :=
  wf_buildPass _ _ _ _ _ (Memory.wf_clear _ _ h)

end Sys2Proof.Machine
end

