-- ==== Sys2Proof/Laws/Decode.lean ====
section
/-! SUPPORT. The fields of a command word as numbers, and the cases of the decoder. -/

namespace Sys2Proof

theorem opcField_eq (w : Word) : opcField w = w.toNat / 2 ^ 28 := by
  have := w.isLt
  simp only [opcField, BitVec.extractLsb'_toNat, Nat.shiftRight_eq_div_pow]
  omega

theorem aField_eq (w : Word) : aField w = w.toNat / 2 ^ 14 % 2 ^ 14 := by
  simp only [aField, BitVec.extractLsb'_toNat, Nat.shiftRight_eq_div_pow]

theorem bField_eq (w : Word) : bField w = w.toNat % 2 ^ 14 := by
  simp only [bField, BitVec.extractLsb'_toNat, Nat.shiftRight_eq_div_pow, pow_zero, Nat.div_one]

theorem opcField_lt (w : Word) : opcField w < 16 := by
  have := w.isLt
  rw [opcField_eq]; omega

theorem aField_lt (w : Word) : aField w < 2 ^ 14 := by
  rw [aField_eq]; omega

theorem bField_lt (w : Word) : bField w < 2 ^ 14 := by
  rw [bField_eq]; omega

/-- The fields make the word. -/
theorem packWord_fields (w : Word) : packWord (opcField w) (aField w) (bField w) = w := by
  apply BitVec.eq_of_toNat_eq
  have := w.isLt
  simp only [packWord, BitVec.toNat_ofNat, opcField_eq, aField_eq, bField_eq]
  omega

theorem packWord_toNat {opc a b : Nat} (ho : opc < 16) (ha : a < 2 ^ 14) (hb : b < 2 ^ 14) :
    (packWord opc a b).toNat = opc * 2 ^ 28 + a * 2 ^ 14 + b := by
  simp only [packWord, BitVec.toNat_ofNat]
  omega

theorem opcField_packWord {opc a b : Nat} (ho : opc < 16) (ha : a < 2 ^ 14) (hb : b < 2 ^ 14) :
    opcField (packWord opc a b) = opc := by
  rw [opcField_eq, packWord_toNat ho ha hb]; omega

theorem aField_packWord {opc a b : Nat} (ho : opc < 16) (ha : a < 2 ^ 14) (hb : b < 2 ^ 14) :
    aField (packWord opc a b) = a := by
  rw [aField_eq, packWord_toNat ho ha hb]; omega

theorem bField_packWord {opc a b : Nat} (ho : opc < 16) (ha : a < 2 ^ 14) (hb : b < 2 ^ 14) :
    bField (packWord opc a b) = b := by
  rw [bField_eq, packWord_toNat ho ha hb]; omega

/-- The operands of a well-formed command fit their fields. -/
theorem Instr.wf_fields {i : Instr} (h : i.wf = true) :
    i.opcode < 16 ∧ i.fieldA < 2 ^ 14 ∧ i.fieldB < 2 ^ 14 := by
  cases i <;> simp_all [Instr.wf, fitsField, Instr.opcode, Instr.fieldA, Instr.fieldB]

theorem formNone_ok {a b : Nat} {i j : Instr} : formNone a b i = .ok j ↔ (a = 0 ∧ b = 0) ∧ i = j := by
  unfold formNone; split <;> simp_all

theorem formSlot_ok {b : Nat} {i j : Instr} : formSlot b i = .ok j ↔ b = 0 ∧ i = j := by
  unfold formSlot; split <;> simp_all

end Sys2Proof
end

