-- ==== Sys2Proof/Laws/HostPort.lean ====
section
/-! SUPPORT. Once for each operation of the host port: everything it can do, and what it does not depend on. -/

namespace Sys2Proof.Machine

/-! ### Words of a HashID -/

theorem setByte_byte (h : Bytes32) (i : Nat) (b : Byte) (k : Nat) (hi : i < 32) :
    (setByte h i b).byte k = if k = i then b else h.byte k := by
  have hl : i < h.bytes.length := by rw [h.size]; exact hi
  simp only [setByte, Bytes32.byte, List.getD_eq_getElem?_getD, List.getElem?_set]
  by_cases e : i = k
  · subst e; simp [hl]
  · simp [e, Ne.symm e]

/-- Two values with the same 32 stored bytes are equal. -/
theorem Bytes32.ext_byte {x y : Bytes32} (h : ∀ i, i < 32 → x.byte i = y.byte i) : x = y := by
  obtain ⟨xs, hx⟩ := x
  obtain ⟨ys, hy⟩ := y
  simp only [Bytes32.mk.injEq]
  refine List.ext_getElem (by rw [hx, hy]) (fun i h1 h2 => ?_)
  simpa [Bytes32.byte, List.getD_eq_getElem?_getD, h1, h2] using h i (by omega)

/-- The bytes of `setword`: byte 4j + r is byte r of the word, the others keep their value (20_memory.md R44). -/
theorem setHashWord_byte (h : Bytes32) (j : Nat) (v : Word) (k : Nat) (hj : j < 8) :
    (setHashWord h j v).byte k = if k / 4 = j then wordByte v (k % 4) else h.byte k := by
  simp only [setHashWord]
  rw [setByte_byte _ _ _ _ (by omega), setByte_byte _ _ _ _ (by omega), setByte_byte _ _ _ _ (by omega),
    setByte_byte _ _ _ _ (by omega)]
  by_cases e : k / 4 = j
  · have hr : k % 4 = 0 ∨ k % 4 = 1 ∨ k % 4 = 2 ∨ k % 4 = 3 := by omega
    have hk : k = 4 * j + k % 4 := by omega
    rw [if_pos e]
    rcases hr with r | r | r | r <;> rw [r] at hk ⊢ <;> subst hk <;> simp
  · rw [if_neg e, if_neg (by omega), if_neg (by omega), if_neg (by omega), if_neg (by omega)]

/-- The four bytes of a word make up the word again. -/
theorem wordByte_append (v : Word) :
    wordByte v 0 ++ wordByte v 1 ++ wordByte v 2 ++ wordByte v 3 = v := by
  refine BitVec.eq_of_getLsbD_eq (fun i hi => ?_)
  simp only [BitVec.getLsbD_append, wordByte, BitVec.getLsbD_extractLsb']
  split_ifs with h1 h2 h3 <;>
    exact (congrArg₂ and (decide_eq_true (by omega)) (congrArg v.getLsbD (by omega))).trans (Bool.true_and _)

/-- A word written reads back, and the other words keep their value (20_memory.md R44). -/
theorem hashWord_setHashWord (h : Bytes32) (j i : Nat) (v : Word) (hj : j < 8) :
    hashWord (setHashWord h j v) i = if i = j then v else hashWord h i := by
  simp only [hashWord, setHashWord_byte _ _ _ _ hj]
  by_cases e : i = j
  · subst e
    have h0 : 4 * i / 4 = i ∧ (4 * i + 1) / 4 = i ∧ (4 * i + 2) / 4 = i ∧ (4 * i + 3) / 4 = i ∧
        4 * i % 4 = 0 ∧ (4 * i + 1) % 4 = 1 ∧ (4 * i + 2) % 4 = 2 ∧ (4 * i + 3) % 4 = 3 := by omega
    obtain ⟨d0, d1, d2, d3, m0, m1, m2, m3⟩ := h0
    simp only [d0, d1, d2, d3, m0, m1, m2, m3, if_true]
    exact wordByte_append v
  · rw [if_neg e, if_neg (by omega), if_neg (by omega), if_neg (by omega), if_neg (by omega)]

/-! ### The message buffer -/

/-- The stored bytes after a write of message word `k` (20_memory.md R49). -/
theorem State.writeMsgWord_read (s : State) (k : Nat) (v : Word) (a : Nat) :
    Memory.read (s.writeMsgWord k v).msg a =
      if a / 4 = k then some (wordByte v (a % 4)) else Memory.read s.msg a := by
  simp only [State.writeMsgWord, State.setMsg_msg, Memory.read_write]
  by_cases e : a / 4 = k
  · have hr : a % 4 = 0 ∨ a % 4 = 1 ∨ a % 4 = 2 ∨ a % 4 = 3 := by omega
    have hk : a = 4 * k + a % 4 := by omega
    rw [if_pos e]
    rcases hr with r | r | r | r <;> rw [r] at hk ⊢ <;> subst hk <;> simp
  · rw [if_neg e, if_neg (by omega), if_neg (by omega), if_neg (by omega), if_neg (by omega)]

/-- The message bytes after a write of message word `k`: no byte outside the word changes. -/
theorem State.writeMsgWord_msgByte (s : State) (k : Nat) (v : Word) (a : Nat) :
    (s.writeMsgWord k v).msgByte a = if a / 4 = k then wordByte v (a % 4) else s.msgByte a := by
  have hr : (s.writeMsgWord k v).resets = s.resets := rfl
  simp only [State.msgByte, State.writeMsgWord_read, hr]
  by_cases e : a / 4 = k
  · simp only [e, if_true]
  · simp only [e, if_false]

/-- A write of a message word keeps the canonical form. -/
theorem State.wf_writeMsgWord {s : State} (k : Nat) (v : Word) (h : Memory.wf s.msg = true) :
    Memory.wf (s.writeMsgWord k v).msg = true :=
  Memory.wf_write _ _ (Memory.wf_write _ _ (Memory.wf_write _ _ (Memory.wf_write _ _ h)))

/-! ### Registers and transactions -/

/-- A write of STATUS, field by field (10_state.md R21, 60_exceptions.md R177). -/
theorem State.writeStatus_eq (s : State) (v : Word) :
    s.writeStatus v = { s with
      done := s.done && !(v.getLsbD 1), err := s.err && !(v.getLsbD 2),
      ecode := if v.getLsbD 2 then 0 else s.ecode } := by
  unfold State.writeStatus
  cases v.getLsbD 1 <;> cases v.getLsbD 2 <;>
    simp only [Bool.not_false, Bool.not_true, Bool.and_true, Bool.and_false, Bool.false_eq_true, if_true,
      if_false] <;> rfl

/-- Everything a write of a register can change: ACC, POS, MLEN, MSG, CTRL, STATUS and INFLIGHT. -/
theorem State.writeReg_cases (s : State) (v : Word) (r : HostReg) :
    ∃ a p n m x y d e c f, s.writeReg v r = { s with
      acc := a, pos := p, mlen := n, msg := m, ieDone := x, ieErr := y, done := d, err := e, ecode := c,
      inflight := f } := by
  cases r with
  | status => exact ⟨_, _, _, _, _, _, _, _, _, _, State.writeStatus_eq s v⟩
  | _ => exact ⟨_, _, _, _, _, _, _, _, _, _, rfl⟩

/-- Everything a transaction can do: nothing, or the write of the register its offset selects. -/
theorem State.effect_cases (s : State) (t : HostTxn) :
    s.effect t = s ∨
    (∃ off v r, t = .write off v ∧ regAt s.cfg off = some r ∧ s.effect t = s.writeReg v r) := by
  cases t with
  | read off => exact .inl rfl
  | write off v =>
    cases h : regAt s.cfg off with
    | none => exact .inl (by simp [State.effect, h])
    | some r => exact .inr ⟨off, v, r, rfl, h, by simp [State.effect, h]⟩

/-- What no transaction changes: the parameters, what only commands write, and the record of the host's side. -/
theorem State.effect_frame (s : State) (t : HostTxn) :
    (s.effect t).cfg = s.cfg ∧ (s.effect t).slots = s.slots ∧ (s.effect t).cmpr = s.cmpr ∧
    (s.effect t).ecmd = s.ecmd ∧ (s.effect t).eidx = s.eidx ∧ (s.effect t).ridx = s.ridx ∧
    (s.effect t).resets = s.resets ∧ (s.effect t).agenda = s.agenda ∧ (s.effect t).held = s.held ∧
    (s.effect t).log = s.log := by
  rcases s.effect_cases t with h | ⟨off, v, r, _, _, h⟩
  · rw [h]; exact ⟨rfl, rfl, rfl, rfl, rfl, rfl, rfl, rfl, rfl, rfl⟩
  · obtain ⟨a, p, n, m, x, y, d, e, c, f, h'⟩ := s.writeReg_cases v r
    rw [h, h']; exact ⟨rfl, rfl, rfl, rfl, rfl, rfl, rfl, rfl, rfl, rfl⟩

/-- A response depends on the unit alone, not on the record of the host's side. -/
theorem State.respond_host (s : State) (t : HostTxn) (l : List Turn) (x : Option HostTxn) :
    ((s.setAgenda l).setHeld x).respond t = s.respond t := by
  cases t with
  | write off v => rfl
  | read off =>
    simp only [State.respond, State.setHeld_cfg, State.setAgenda_cfg]
    cases regAt s.cfg off with
    | none => rfl
    | some r => cases r <;> rfl

/-- An effect depends on the unit alone, and leaves the record of the host's side as it is. -/
theorem State.effect_host (s : State) (t : HostTxn) (l : List Turn) (x : Option HostTxn) :
    ((s.setAgenda l).setHeld x).effect t = ((s.effect t).setAgenda l).setHeld x := by
  cases t with
  | read off => rfl
  | write off v =>
    simp only [State.effect, State.setHeld_cfg, State.setAgenda_cfg]
    cases regAt s.cfg off with
    | none => rfl
    | some r =>
      cases r with
      | status => simp only [State.writeReg, State.writeStatus_eq]; rfl
      | _ => rfl

/-- Everything that performing a transaction does, whatever the record of the host's side. -/
theorem State.perform_eq (s : State) (t : HostTxn) (l : List Turn) (x : Option HostTxn) :
    ((s.setAgenda l).setHeld x).perform t =
      { s.effect t with agenda := l, held := x, log := (t, s.respond t) :: s.log } := by
  rw [State.perform, State.respond_host, State.effect_host]
  simp only [State.record, State.setHeld, State.setAgenda, (s.effect_frame t).2.2.2.2.2.2.2.2.2]

end Sys2Proof.Machine
end

