-- ==== Sys2Proof/Laws/PerInstr.lean ====
section
/-! SUPPORT. The families of statements made per instruction (LAWS.json). -/

namespace Sys2Proof.Laws

/-- The word of a well-formed command carries its opcode and its two operands in their fields (30_encoding.md
R71, R73). -/
def EncodeFields.Statement (i : Instr) : Prop :=
  i.wf = true → opcField (encode i) = i.opcode ∧ aField (encode i) = i.fieldA ∧ bField (encode i) = i.fieldB

theorem EncodeFields.all (i : Instr) : EncodeFields.Statement i := fun h =>
  have ⟨ho, ha, hb⟩ := Instr.wf_fields h
  ⟨opcField_packWord ho ha hb, aField_packWord ho ha hb, bField_packWord ho ha hb⟩

theorem EncodeFields.nop : EncodeFields.Statement .nop := EncodeFields.all _
theorem EncodeFields.lda (s : Nat) : EncodeFields.Statement (.lda s) := EncodeFields.all _
theorem EncodeFields.sta (s : Nat) : EncodeFields.Statement (.sta s) := EncodeFields.all _
theorem EncodeFields.clrs (s n : Nat) : EncodeFields.Statement (.clrs s n) := EncodeFields.all _
theorem EncodeFields.clra : EncodeFields.Statement .clra := EncodeFields.all _
theorem EncodeFields.hbr (s : Nat) : EncodeFields.Statement (.hbr s) := EncodeFields.all _
theorem EncodeFields.hbl (s : Nat) : EncodeFields.Statement (.hbl s) := EncodeFields.all _
theorem EncodeFields.fold (s n : Nat) : EncodeFields.Statement (.fold s n) := EncodeFields.all _
theorem EncodeFields.build (b n : Nat) : EncodeFields.Statement (.build b n) := EncodeFields.all _
theorem EncodeFields.cmp (s : Nat) : EncodeFields.Statement (.cmp s) := EncodeFields.all _
theorem EncodeFields.dhash : EncodeFields.Statement .dhash := EncodeFields.all _

end Sys2Proof.Laws
end

