-- ==== Sys2Proof/Laws/Step.lean ====
section
/-! SUPPORT. Once for each shared operation and for each meaning: everything it can do. -/

namespace Sys2Proof.Machine

@[simp] theorem State.raise_eq (s : State) (c : FaultCause) (i : Instr) :
    s.raise c i = .next (s.takeFault c (encode i)) := rfl

theorem State.takeFault_eq_faulted (s : State) (c : FaultCause) (w : Word) :
    s.takeFault c w = s.faulted c.code w c.info := rfl

/-- Everything the common part of HBR and HBL can do (42_hashbranch.md R132). -/
theorem branchHash_cases (i : Instr) (a : Nat) (f : Bytes32 → Bytes32 → Bytes32) (s : State) :
    (s.cfg.nslots ≤ a ∧ branchHash i a f s = .next (s.takeFault .range (encode i))) ∨
    (a < s.cfg.nslots ∧ s.acc = none ∧ branchHash i a f s = .next (s.takeFault nilAcc (encode i))) ∨
    (a < s.cfg.nslots ∧ s.acc ≠ none ∧ s.slot a = none ∧
      branchHash i a f s = .next (s.takeFault (nilSlot a) (encode i))) ∨
    (∃ h e, a < s.cfg.nslots ∧ s.acc = some h ∧ s.slot a = some e ∧
      branchHash i a f s = .next (s.setAcc (some (f h e)))) := by
  by_cases hr : s.cfg.nslots ≤ a
  · exact .inl ⟨hr, by simp [branchHash, hr]⟩
  · have hlt : a < s.cfg.nslots := by omega
    cases ha : s.acc with
    | none => exact .inr (.inl ⟨hlt, rfl, by simp [branchHash, hr, ha]⟩)
    | some h =>
      cases hs : s.slot a with
      | none => exact .inr (.inr (.inl ⟨hlt, by simp, rfl, by simp [branchHash, hr, ha, hs]⟩))
      | some e => exact .inr (.inr (.inr ⟨h, e, hlt, rfl, rfl, by simp [branchHash, hr, ha, hs]⟩))

/-- Everything FOLD can do (44_fold_verify.md R160). -/
theorem execFold_cases (a n : Nat) (s : State) :
    ((n > 32 ∨ s.cfg.nslots < a + n) ∧ execFold a n s = .next (s.takeFault .range (encode (.fold a n)))) ∨
    (s.acc = none ∧ 1 ≤ n ∧ execFold a n s = .next (s.takeFault nilAcc (encode (.fold a n)))) ∨
    (s.acc = none ∧ n = 0 ∧ execFold a n s = .next s) ∨
    (∃ h k, s.acc = some h ∧ presentRange s.slots a n = .error k ∧
      execFold a n s = .next (s.takeFault (nilSlot k) (encode (.fold a n)))) ∨
    (∃ h es, s.acc = some h ∧ presentRange s.slots a n = .ok es ∧ n ≤ 32 ∧ a + n ≤ s.cfg.nslots ∧
      execFold a n s = .next (s.setAcc (some (foldProof s.cfg s.pos 0 es h)))) := by
  by_cases hr : n > 32 ∨ a + n > s.cfg.nslots
  · exact .inl ⟨by simpa using hr, by simp only [execFold, if_pos hr, State.raise_eq]⟩
  · simp only [execFold, if_neg hr]
    cases ha : s.acc with
    | none =>
      by_cases hn : n ≥ 1
      · exact .inr (.inl ⟨rfl, hn, by simp only [if_pos hn, State.raise_eq]⟩)
      · exact .inr (.inr (.inl ⟨rfl, by omega, by simp only [if_neg hn]⟩))
    | some h =>
      cases hp : presentRange s.slots a n with
      | error k => exact .inr (.inr (.inr (.inl ⟨h, k, rfl, rfl, rfl⟩)))
      | ok es => exact .inr (.inr (.inr (.inr ⟨h, es, rfl, rfl, by omega, by omega, rfl⟩)))

/-- Everything BUILD can do (43_build.md R140). -/
theorem execBuild_cases (b n : Nat) (s : State) :
    (s.cfg.nslots < b + 2 * nextPow2 n - 1 ∧
      execBuild b n s = .next (s.takeFault .range (encode (.build b n)))) ∨
    (∃ k, presentRange s.slots b n = .error k ∧
      execBuild b n s = .next (s.takeFault (nilSlot k) (encode (.build b n)))) ∨
    (∃ es, presentRange s.slots b n = .ok es ∧ b + 2 * nextPow2 n - 1 ≤ s.cfg.nslots ∧
      execBuild b n s = .next (s.buildResult b n)) := by
  by_cases hr : b + 2 * nextPow2 n - 1 > s.cfg.nslots
  · exact .inl ⟨hr, by simp only [execBuild, if_pos hr, State.raise_eq]⟩
  · simp only [execBuild, if_neg hr]
    cases hp : presentRange s.slots b n with
    | error k => exact .inr (.inl ⟨k, rfl, rfl⟩)
    | ok es => exact .inr (.inr ⟨es, rfl, by omega, rfl⟩)

/-- Everything a command can do: the record of a fault, or its own effect on ACC, the slots, CMPR and RIDX. -/
theorem exec_cases (i : Instr) (s : State) :
    (∃ c, exec i s = .next (s.takeFault c (encode i))) ∨
    (∃ m a q r, exec i s = .next { s with slots := m, acc := a, cmpr := q, ridx := r }) := by
  cases i with
  | nop => exact .inr ⟨s.slots, s.acc, s.cmpr, s.ridx, rfl⟩
  | clra => exact .inr ⟨s.slots, none, s.cmpr, s.ridx, rfl⟩
  | lda a =>
    by_cases h : a ≥ s.cfg.nslots
    · exact .inl ⟨.range, by simp only [exec, execLda, if_pos h, State.raise_eq]⟩
    · exact .inr ⟨s.slots, s.slot a, s.cmpr, s.ridx, by simp only [exec, execLda, if_neg h]; rfl⟩
  | sta a =>
    by_cases h : a ≥ s.cfg.nslots
    · exact .inl ⟨.range, by simp only [exec, execSta, if_pos h, State.raise_eq]⟩
    · exact .inr ⟨Memory.put a s.acc s.slots, s.acc, s.cmpr, s.ridx, by
        simp only [exec, execSta, if_neg h]; rfl⟩
  | clrs a n =>
    by_cases h : a + n > s.cfg.nslots
    · exact .inl ⟨.range, by simp only [exec, execClrs, if_pos h, State.raise_eq]⟩
    · exact .inr ⟨Memory.clear a n s.slots, s.acc, s.cmpr, s.ridx, by
        simp only [exec, execClrs, if_neg h]; rfl⟩
  | cmp a =>
    by_cases h : a ≥ s.cfg.nslots
    · exact .inl ⟨.range, by simp only [exec, execCmp, if_pos h, State.raise_eq]⟩
    · exact .inr ⟨s.slots, s.acc, cmprBits (compareHash s.acc (s.slot a)), s.ridx, by
        simp only [exec, execCmp, if_neg h]; rfl⟩
  | dhash =>
    by_cases h : s.mlen.toNat > s.cfg.msgBytes
    · exact .inl ⟨.range, by simp only [exec, execDhash, if_pos h, State.raise_eq]⟩
    · exact .inr ⟨s.slots, some (hash256 s.cfg (s.message s.mlen.toNat)), s.cmpr, s.ridx, by
        simp only [exec, execDhash, if_neg h]; rfl⟩
  | hbr a =>
    rcases branchHash_cases (.hbr a) a (fun h e => hashBranch s.cfg h e) s with
      ⟨_, h⟩ | ⟨_, _, h⟩ | ⟨_, _, _, h⟩ | ⟨x, e, _, _, _, h⟩
    · exact .inl ⟨_, h⟩
    · exact .inl ⟨_, h⟩
    · exact .inl ⟨_, h⟩
    · exact .inr ⟨s.slots, some (hashBranch s.cfg x e), s.cmpr, s.ridx, h⟩
  | hbl a =>
    rcases branchHash_cases (.hbl a) a (fun h e => hashBranch s.cfg e h) s with
      ⟨_, h⟩ | ⟨_, _, h⟩ | ⟨_, _, _, h⟩ | ⟨x, e, _, _, _, h⟩
    · exact .inl ⟨_, h⟩
    · exact .inl ⟨_, h⟩
    · exact .inl ⟨_, h⟩
    · exact .inr ⟨s.slots, some (hashBranch s.cfg e x), s.cmpr, s.ridx, h⟩
  | fold a n =>
    rcases execFold_cases a n s with
      ⟨_, h⟩ | ⟨_, _, h⟩ | ⟨_, _, h⟩ | ⟨_, _, _, _, h⟩ | ⟨x, es, _, _, _, _, h⟩
    · exact .inl ⟨_, h⟩
    · exact .inl ⟨_, h⟩
    · exact .inr ⟨s.slots, s.acc, s.cmpr, s.ridx, h⟩
    · exact .inl ⟨_, h⟩
    · exact .inr ⟨s.slots, some (foldProof s.cfg s.pos 0 es x), s.cmpr, s.ridx, h⟩
  | build b n =>
    rcases execBuild_cases b n s with ⟨_, h⟩ | ⟨_, _, h⟩ | ⟨_, _, _, h⟩
    · exact .inl ⟨_, h⟩
    · exact .inl ⟨_, h⟩
    · exact .inr ⟨_, _, s.cmpr, _, h⟩

/-- Everything `Exec(w)` can do (30_encoding.md R74). -/
theorem execWord_cases (w : Word) (s : State) :
    (∃ c, execWord w s = .next (s.takeFault c w)) ∨
    (∃ i, decode w = .ok i ∧ execWord w s = exec i s) := by
  unfold execWord
  cases decode w with
  | error e => exact .inl ⟨.illCmd, rfl⟩
  | ok i => exact .inr ⟨i, rfl, rfl⟩

/-- Everything `Complete` can do (60_exceptions.md R171). -/
theorem State.complete_cases (s : State) :
    (s.inflight = none ∧ s.complete = .next s) ∨
    (∃ w, s.inflight = some w ∧ s.err = true ∧
      s.complete = .next ((s.setInflight none).setDone true)) ∨
    (∃ w t, s.inflight = some w ∧ s.err = false ∧ execWord w (s.setInflight none) = .next t ∧
      s.complete = .next (t.setDone true)) := by
  unfold State.complete
  cases hi : s.inflight with
  | none => exact .inl ⟨rfl, rfl⟩
  | some w =>
    cases he : s.err with
    | true => exact .inr (.inl ⟨w, rfl, rfl, rfl⟩)
    | false =>
      have hx : ∃ t, execWord w (s.setInflight none) = .next t := by
        rcases execWord_cases w (s.setInflight none) with ⟨c, h⟩ | ⟨i, _, h⟩
        · exact ⟨_, h⟩
        · rcases exec_cases i (s.setInflight none) with ⟨c, h'⟩ | ⟨_, _, _, _, h'⟩
          · exact ⟨_, h.trans h'⟩
          · exact ⟨_, h.trans h'⟩
      obtain ⟨t, ht⟩ := hx
      exact .inr (.inr ⟨w, t, rfl, rfl, ht, by simp [ht, retire]⟩)

/-- Everything the machine can do when nothing is presented. -/
theorem State.proceed_cases (s : State) :
    (s.busy = true ∧ s.proceed = s.complete) ∨
    (∃ t, s.busy = false ∧ s.held = some t ∧ s.proceed = .next ((s.setHeld none).perform t)) ∨
    (s.busy = false ∧ s.held = none ∧ s.proceed = .next s) := by
  unfold State.proceed
  cases hb : s.busy with
  | true => exact .inl ⟨rfl, rfl⟩
  | false =>
    cases hh : s.held with
    | none => exact .inr (.inr ⟨rfl, rfl, rfl⟩)
    | some t => exact .inr (.inl ⟨t, rfl, rfl, rfl⟩)

/-- Everything that presenting a transaction can do (20_memory.md R53). -/
theorem State.present_cases (s : State) (t : HostTxn) :
    ((s.busy = false ∨ t = statusRead) ∧ s.present t = s.perform t) ∨
    (s.busy = true ∧ t ≠ statusRead ∧ s.present t = s.setHeld (some t)) := by
  by_cases h : s.performs t = true
  · refine .inl ⟨?_, by simp [State.present, h]⟩
    simpa [State.performs] using h
  · refine .inr ⟨?_, ?_, by simp [State.present, h]⟩ <;> simp_all [State.performs]

/-- Everything a step can do. -/
theorem step_cases (s : State) :
    (s.agenda = [] ∧ step s = s.proceed) ∨
    (∃ l, s.agenda = .reset :: l ∧ step s = .next ((s.setAgenda l).hardReset)) ∨
    (∃ l, s.agenda = .unit :: l ∧ step s = (s.setAgenda l).complete) ∨
    (∃ t l h, s.agenda = .host t :: l ∧ s.held = some h ∧ step s = s.proceed) ∨
    (∃ t l, s.agenda = .host t :: l ∧ s.held = none ∧ step s = .next ((s.setAgenda l).present t)) := by
  simp only [step, State.turn]
  rcases ha : s.agenda with _ | ⟨t, l⟩
  · exact .inl ⟨rfl, rfl⟩
  · cases t with
    | reset => exact .inr (.inl ⟨l, rfl, rfl⟩)
    | unit => exact .inr (.inr (.inl ⟨l, rfl, rfl⟩))
    | host t =>
      cases hh : s.held with
      | some h => exact .inr (.inr (.inr (.inl ⟨t, l, h, rfl, rfl, rfl⟩)))
      | none => exact .inr (.inr (.inr (.inr ⟨t, l, rfl, rfl, rfl⟩)))

/-- A run goes on from the state its first step answers. -/
theorem run_succ (k : Nat) {s t : State} (h : step s = .next t) :
    Sys2Proof.core.run (k + 1) s = Sys2Proof.core.run k t := by
  have h' : Sys2Proof.core.step s = .next t := h
  simp only [Host.Core.run, h']

end Sys2Proof.Machine
end

