-- ==== Sys2Proof/Tests/Slice0.lean ====
section
/-! SUPPORT. Tests of single decodes and steps against 95_test_vectors.md (the V numbers below), and for every
obligation with hypotheses a witness that meets them. -/

namespace Sys2Proof.Tests
open Sys2Proof.Machine

/-! ### Helpers -/

/-- 32 bytes of one value. -/
def rep (b : Nat) : Bytes32 :=
  ⟨List.replicate 32 (BitVec.ofNat 8 b), by simp⟩

/-- The value whose stored form is written as a number, byte 0 first. -/
def stored (n : Nat) : Bytes32 :=
  ⟨bytesBE 32 n, by rfl⟩

/-- The start state of V3.1: SLOT[0] = A, SLOT[1] = B, ACC = A. -/
def bench : State :=
  { State.reset with slots := [(0, rep 0xaa), (1, rep 0xbb)], acc := some (rep 0xaa) }

/-- The word in flight, and the unit to move. -/
def live (w : Word) (s : State) : State :=
  { s with inflight := some w, agenda := [.unit] }

/-- One transaction to come. -/
def asked (t : HostTxn) (s : State) : State :=
  { s with agenda := [.host t] }

/-- A field of the state that a step leaves. -/
def after {α : Type} (s : State) (f : State → α) : Option α :=
  match step s with
  | .next t => some (f t)
  | .fault _ => none
  | .refused _ => none

/-! ### WellFormed: each check refuses an ill-formed term (30_encoding.md R72) -/

theorem test_wf_lda : (Instr.lda 16383).wf = true ∧ (Instr.lda 16384).wf = false := by decide
theorem test_wf_sta : (Instr.sta 16383).wf = true ∧ (Instr.sta 16384).wf = false := by decide
theorem test_wf_clrs :
    (Instr.clrs 16383 16383).wf = true ∧ (Instr.clrs 16384 0).wf = false ∧ (Instr.clrs 0 16384).wf = false := by
  decide
theorem test_wf_hbr : (Instr.hbr 16383).wf = true ∧ (Instr.hbr 16384).wf = false := by decide
theorem test_wf_hbl : (Instr.hbl 16383).wf = true ∧ (Instr.hbl 16384).wf = false := by decide
theorem test_wf_fold :
    (Instr.fold 16383 16383).wf = true ∧ (Instr.fold 16384 0).wf = false ∧ (Instr.fold 0 16384).wf = false := by
  decide
theorem test_wf_build :
    (Instr.build 16383 16383).wf = true ∧ (Instr.build 16384 0).wf = false ∧ (Instr.build 0 16384).wf = false := by
  decide
theorem test_wf_cmp : (Instr.cmp 16383).wf = true ∧ (Instr.cmp 16384).wf = false := by decide

/-! ### Decode and encode: words of 95_test_vectors.md section 6, written out from the map of R73 -/

theorem test_decode_nop : decode 0b0000_00000000000000_00000000000000 = .ok .nop := by decide
theorem test_decode_lda : decode 0b0001_00000000000101_00000000000000 = .ok (.lda 5) := by decide
theorem test_decode_sta : decode 0b0010_00000000010000_00000000000000 = .ok (.sta 16) := by decide
theorem test_decode_clrs : decode 0b0011_00000000000000_00000000001000 = .ok (.clrs 0 8) := by decide
theorem test_decode_clra : decode 0b0100_00000000000000_00000000000000 = .ok .clra := by decide
theorem test_decode_hbr : decode 0b0101_00000000000111_00000000000000 = .ok (.hbr 7) := by decide
theorem test_decode_hbl : decode 0b0110_00000000000010_00000000000000 = .ok (.hbl 2) := by decide
theorem test_decode_fold : decode 0b0111_00000001100100_00000000000011 = .ok (.fold 100 3) := by decide
theorem test_decode_build : decode 0b1000_00000000100000_00000000000101 = .ok (.build 32 5) := by decide
theorem test_decode_cmp : decode 0b1001_00000000101110_00000000000000 = .ok (.cmp 46) := by decide
theorem test_decode_dhash : decode 0b1010_00000000000000_00000000000000 = .ok .dhash := by decide

theorem test_decode_reserved_opcodes :
    [0xB0000000, 0xC0000000, 0xD0000000, 0xE0000000, 0xF0000000, 0xFFFFFFFF].map decode =
      List.replicate 6 (.error .reservedOpcode) := by
  decide

theorem test_decode_reserved_fields :
    [0x00000001, 0x00004000, 0x40000001, 0xA0004000, 0x10000001, 0x20000001, 0x50000001, 0x60000001,
      0x90000001].map decode = List.replicate 9 (.error .reservedField) := by
  decide

theorem test_encode_listing :
    [Instr.nop, .lda 16383, .sta 16, .clrs 16383 16383, .clra, .hbr 7, .hbl 2, .fold 16 2, .build 0 4, .cmp 6,
      .dhash].map encode =
      [0x00000000, 0x1FFFC000, 0x20040000, 0x3FFFFFFF, 0x40000000, 0x5001C000, 0x60008000, 0x70040002,
        0x80000004, 0x90018000, 0xA0000000] := by
  decide

theorem test_table_word : decodeTableWord 32 0x70190003 = some (.fold 100 3) := by decide

/-! ### Hashes (95_test_vectors.md section 2) -/

/-- V2.2: SHA256 of "abc". -/
theorem test_sha256_abc :
    sha256Standard [0x61, 0x62, 0x63] =
      stored 0xba7816bf8f01cfea414140de5dae2223b00361a396177a9cb410ff61f20015ad := by
  decide +kernel

/-- V2.5: 56 bytes, the shortest message of two blocks. -/
theorem test_sha256_two_blocks :
    sha256Standard (List.replicate 56 0x61) =
      stored 0xb35439a4ac6f0948b6d6f9e3c6af0f5f590ce20f1bde7090ef7970686ec6738a := by
  decide +kernel

/-- V2.3 and V1.4, as program P4 runs it: DHASH of the byte 0x14. -/
theorem test_dhash_p4 :
    after (live 0xA0000000 { State.reset with msg := [(0, 0x14), (1, 0), (2, 0), (3, 0)], mlen := 1 }) State.acc =
      some (some (stored 0xd703d3da6a87bd8e0b453f3b6c41edcc9bf331b2b88ef26eb39dc7abee4e00a3)) := by
  decide +kernel

/-- V2.12: MLEN = 257 in a buffer of 256 bytes. -/
theorem test_dhash_range :
    after (live 0xA0000000 { State.reset with mlen := 257 }) State.statusWord = some 0x00000226 := by
  decide

/-! ### Moves and compare (section 3) -/

/-- V3.1. -/
theorem test_nop : after (live 0 bench) State.statusWord = some 0x0000002A := by decide

/-- V3.2. -/
theorem test_lda : after (live 0x10004000 bench) State.acc = some (some (rep 0xbb)) := by decide

/-- V3.4. -/
theorem test_lda_range :
    after (live 0x14000000 bench) (fun t => (t.statusWord, t.ecmd, t.acc)) =
      some (0x0000022E, 0x14000000, some (rep 0xaa)) := by
  decide

/-- V3.5. -/
theorem test_sta : after (live 0x20024000 bench) (·.slot 9) = some (some (rep 0xaa)) := by decide

/-- V3.6: storing nil. -/
theorem test_sta_nil :
    after (live 0x20000000 { bench with acc := none }) State.slots = some [(1, rep 0xbb)] := by
  decide

/-- V3.7. -/
theorem test_clrs : after (live 0x30000002 bench) State.slots = some [] := by decide

/-- V3.8: the empty range at NSLOTS fits, the one past it does not. -/
theorem test_clrs_edge :
    after (live 0x34000000 bench) State.err = some false ∧ after (live 0x34004000 bench) State.err = some true := by
  decide

/-- V3.6. -/
theorem test_clra : after (live 0x40000000 bench) State.acc = some none := by decide

/-- V3.10. -/
theorem test_illegal_command :
    after (live 0x10004001 bench) (fun t => (t.statusWord, t.ecmd)) = some (0x0000012E, 0x10004001) := by
  decide

/-- V3.18: byte 31 decides. -/
theorem test_cmp_less :
    after (live 0x90024000 { State.reset with
        slots := [(9, setByte Bytes32.zero 31 1)]
        acc := some (setByte (rep 0xff) 31 0) }) State.statusWord = some 0x0000003A := by
  decide

/-- V3.13: a present value is above nil. -/
theorem test_cmp_nil :
    after (live 0x90024000 { State.reset with acc := some Bytes32.zero }) State.statusWord = some 0x0000001A := by
  decide

/-! ### Branch hash, fold, build (sections 4 and 5) -/

/-- V4.1. -/
theorem test_hbr :
    after (live 0x50004000 bench) State.acc =
      some (some (stored 0x499d0d3b39373fb9b7b0f399b7411f7af213d91c32624280e995ae0f8eb776fb)) := by
  decide +kernel

/-- V4.11. -/
theorem test_hbr_nil :
    after (live 0x50014000 bench) (fun t => (t.statusWord, t.eidx)) = some (0x0000032E, 5) := by
  decide

/-- V4.2. -/
theorem test_hbl :
    after (live 0x60004000 bench) State.acc =
      some (some (stored 0x4388c64cd6508f6d36f482cb0a2de8f62243270c08d83c657046320df1352dbe)) := by
  decide +kernel

/-- V4.13: ACC is examined first. -/
theorem test_hbl_nil_first :
    after (live 0x60014000 { bench with acc := none }) State.eidx = some 0xFFFFFFFF := by
  decide

/-- V4.2c: bit 1 of POS puts the second element on the left. -/
theorem test_fold :
    after (live 0x70000002 { bench with pos := 2 }) State.acc =
      some (some (stored 0x65156bc1049339729fa7710dfff68a948fd7027ce5cdb22d9d63dea8cdfc1882)) := by
  decide +kernel

/-- V4.15: nothing is partly folded. -/
theorem test_fold_nil :
    after (live 0x70000003 bench) (fun t => (t.eidx, t.acc)) = some (2, some (rep 0xaa)) := by
  decide

/-- V5.4: three leaves, the slots above them filled before. -/
theorem test_build :
    after (live 0x80000003 { State.reset with
        slots := [(0, rep 1), (1, rep 2), (2, rep 3), (3, rep 0xee), (4, rep 0xee), (7, rep 0xee)] })
      (fun t => (t.slots, t.ridx)) =
      some ([(0, rep 1), (1, rep 2), (2, rep 3),
        (4, stored 0x39ce20bede82c96b8908bec4a157b09c549b3db90b9b474bda9ae9b9030310b4),
        (5, stored 0x643d4b7e3699d2b3d8c9374b3600bdf1f573b799d2a56886236551a016b42ddf),
        (6, stored 0x223e023fadf1f053df26988871f893c821c28edf77d64a955e6c2a02d547bdac),
        (7, rep 0xee)], 6) := by
  decide +kernel

/-- V5.6. -/
theorem test_build_faults :
    after (live 0x84000000 bench) State.ecode = some 2 ∧
    after (live 0x80000003 bench) (fun t => (t.eidx, t.acc)) = some (2, some (rep 0xaa)) := by
  decide

/-! ### The host port (section 7) and the agents -/

/-- V7.1. -/
theorem test_reset_reads :
    [0x000, 0x004, 0x008, 0x00C].map (fun off => State.reset.respond (.read off)) =
      [.value 0x48323536, .value 0x0100000C, .value 0, .value 0x00000020] := by
  decide

/-- V7.2: BUSY while the command is in flight. -/
theorem test_busy_status : (State.reset.issue 0).statusWord = 0x00000021 := by decide

/-- V7.3, and the last word of MSG. -/
theorem test_unmapped :
    State.reset.respond (.read 0x028) = .err ∧ State.reset.respond (.write 0x060 1) = .err ∧
    State.reset.respond (.read 0x200) = .err ∧ State.reset.respond (.write 0x1FC 0) = .ok := by
  decide

/-- V7.8. -/
theorem test_msg_word :
    after (asked (.write 0x100 0x01020304) State.reset) State.msg = some [(0, 1), (1, 2), (2, 3), (3, 4)] := by
  decide

/-- V3.9. -/
theorem test_acc_word :
    after (asked (.write 0x048 0xDEADBEEF) State.reset) (fun t => (t.accWord 2, t.accWord 1, t.statusWord)) =
      some (0xDEADBEEF, 0, 0x00000028) := by
  decide

/-- Program P5: while ERR = 1 a command is dropped, and DONE is set. -/
theorem test_dropped :
    after (live 0x40000000 { bench with err := true, ecode := 3 }) (fun t => (t.acc, t.statusWord)) =
      some (some (rep 0xaa), 0x0000032E) := by
  decide

/-- The host's `withFetchWord`: the very next step runs the word. -/
theorem test_fetch_word : after (bench.withFetchWord 32 0x40000000) State.acc = some none := by decide

/-- `off(k)` of the tree of eight padded leaves: 0, 8, 12, 14 (program P3). -/
theorem test_level_offsets : (List.range 4).map (levelOffset 8) = [0, 8, 12, 14] := by decide

/-! ### Witnesses: concrete states and operands that meet the hypotheses of each obligation, clause by clause -/

/-- Four leaves and room for their tree. -/
def grove : State :=
  { State.reset with slots := [(0, rep 1), (1, rep 2), (2, rep 3), (3, rep 4), (4, rep 5)], acc := some (rep 9) }

/-- `grove` with its leaves eight slots higher, and ACC nil. -/
def groveHigh : State :=
  { State.reset with slots := [(8, rep 1), (9, rep 2), (10, rep 3)] }

theorem witness_DecodeOfEncode : (Instr.fold 16383 16383).wf = true := by decide

theorem witness_EncodeOfDecode : decode 0x3FFFFFFF = .ok (.clrs 16383 16383) := by decide

theorem witness_CommandWordIsSumOfFields : (Instr.build 16383 16383).wf = true := by decide

/-- All three kinds of reserved word, each in flight with ERR = 0. -/
theorem witness_ReservedWordRaisesIllegalCommand :
    (∀ w : Word, (live w bench).agenda = .unit :: [] ∧ (live w bench).inflight = some w ∧
      (live w bench).err = false) ∧
    11 ≤ (0xB0000000 : Word).toNat / 2 ^ 28 ∧
    ((0x40000001 : Word).toNat / 2 ^ 28 ∈ [0, 4, 10] ∧ (0x40000001 : Word).toNat % 2 ^ 28 ≠ 0) ∧
    ((0x90000001 : Word).toNat / 2 ^ 28 ∈ [1, 2, 5, 6, 9] ∧ (0x90000001 : Word).toNat % 2 ^ 14 ≠ 0) :=
  ⟨fun _ => ⟨rfl, rfl, rfl⟩, by decide, by decide, by decide⟩

/-- A DHASH word with B = 5, MLEN one above the buffer, MLEN at the buffer's size. -/
theorem witness_DhashHashesMessage :
    ((0xA0000005 : Word).toNat / 2 ^ 28 = 10 ∧ (0xA0000005 : Word).toNat % 2 ^ 28 ≠ 0) ∧
    bench.cfg.msgBytes < ({ bench with mlen := 257 } : State).mlen.toNat ∧
    ({ bench with mlen := 256 } : State).mlen.toNat ≤ bench.cfg.msgBytes := by
  decide

theorem witness_NopHasNoEffect :
    (0x00000001 : Word).toNat / 2 ^ 28 = 0 ∧ (0x00000001 : Word).toNat % 2 ^ 28 ≠ 0 := by
  decide

/-- The last operand, a word with B = 1, and the slots on both sides of NSLOTS. -/
theorem witness_LdaLoadsSlot :
    16383 < 2 ^ 14 ∧ ((0x10000001 : Word).toNat / 2 ^ 28 = 1 ∧ (0x10000001 : Word).toNat % 2 ^ 14 ≠ 0) ∧
    bench.cfg.nslots ≤ 4096 ∧ 4095 < bench.cfg.nslots := by
  decide

theorem witness_StaStoresAccumulator :
    16383 < 2 ^ 14 ∧ ((0x20000001 : Word).toNat / 2 ^ 28 = 2 ∧ (0x20000001 : Word).toNat % 2 ^ 14 ≠ 0) ∧
    bench.cfg.nslots ≤ 4096 ∧ 4095 < bench.cfg.nslots ∧
    (4095 < groveHigh.cfg.nslots ∧ groveHigh.acc = none) := by
  decide

theorem witness_ClraMakesAccumulatorNil :
    (0x40004000 : Word).toNat / 2 ^ 28 = 4 ∧ (0x40004000 : Word).toNat % 2 ^ 28 ≠ 0 := by
  decide

/-- The last operands, a range one too long, the last range that fits, the empty range at NSLOTS. -/
theorem witness_ClrsMakesRangeNil :
    (16383 < 2 ^ 14 ∧ 16383 < 2 ^ 14) ∧ bench.cfg.nslots < 4095 + 2 ∧ 4095 + 1 ≤ bench.cfg.nslots ∧
    4096 ≤ bench.cfg.nslots := by
  decide

theorem witness_CmpWritesVerdict :
    16383 < 2 ^ 14 ∧ ((0x90000001 : Word).toNat / 2 ^ 28 = 9 ∧ (0x90000001 : Word).toNat % 2 ^ 14 ≠ 0) ∧
    bench.cfg.nslots ≤ 4096 ∧ 4095 < bench.cfg.nslots := by
  decide

theorem witness_CompareOrdersFromLastByte : rep 1 ≠ Bytes32.zero := by decide

/-- Three values in order: nil, A, B. -/
theorem witness_CompareIsTotalOrder :
    compareHash none (some (rep 0xaa)) ≤ 0 ∧ compareHash (some (rep 0xaa)) (some (rep 0xbb)) ≤ 0 := by
  decide

/-- The last operand, words with B = 1, a slot beyond NSLOTS, ACC nil, the slot nil, both present. -/
theorem witness_BranchHashCommands :
    16383 < 2 ^ 14 ∧
    ((0x50000001 : Word).toNat / 2 ^ 28 = 5 ∧ (0x50000001 : Word).toNat % 2 ^ 14 ≠ 0) ∧
    ((0x60000001 : Word).toNat / 2 ^ 28 = 6 ∧ (0x60000001 : Word).toNat % 2 ^ 14 ≠ 0) ∧
    bench.cfg.nslots ≤ 4096 ∧
    (4095 < groveHigh.cfg.nslots ∧ groveHigh.acc = none) ∧
    (4095 < bench.cfg.nslots ∧ bench.acc ≠ none ∧ bench.slot 4095 = none) ∧
    (1 < bench.cfg.nslots ∧ bench.acc = some (rep 0xaa) ∧ bench.slot 1 = some (rep 0xbb)) := by
  decide

/-- n = 33, a range one too long, ACC nil, the lowest nil slot of a range, n = 0 at NSLOTS, a chain of two. -/
theorem witness_FoldChainsProof :
    (16383 < 2 ^ 14 ∧ 16383 < 2 ^ 14) ∧
    (32 < 33 ∨ bench.cfg.nslots < 0 + 33) ∧ (32 < 2 ∨ bench.cfg.nslots < 4095 + 2) ∧
    (1 ≤ 32 ∧ 8 + 1 ≤ groveHigh.cfg.nslots ∧ 1 ≤ 1 ∧ groveHigh.acc = none) ∧
    (32 ≤ 32 ∧ 0 + 32 ≤ bench.cfg.nslots ∧ bench.acc ≠ none ∧
      0 ≤ 2 ∧ 2 < 0 + 32 ∧ bench.slot 2 = none ∧ ∀ x, x < 2 → bench.slot x ≠ none) ∧
    4096 ≤ bench.cfg.nslots ∧
    (2 ≤ 32 ∧ 0 + 2 ≤ bench.cfg.nslots ∧ bench.acc = some (rep 0xaa) ∧
      ∀ i, i < 2 → bench.slot (0 + i) = some (if i = 0 then rep 0xaa else rep 0xbb)) := by
  decide

theorem witness_FoldOfOneIsBranchHash :
    1 < bench.cfg.nslots ∧ bench.acc ≠ none ∧ bench.slot 1 ≠ none := by
  decide

/-- A fold of two elements and its two parts, none of which faults. -/
theorem witness_FoldSplits :
    ∃ t t1 t2 : State, bench.err = false ∧
      exec (.fold 0 (1 + 1)) bench = .next t ∧ t.err = false ∧
      exec (.fold 0 1) bench = .next t1 ∧ t1.err = false ∧
      exec (.fold (0 + 1) 1) { t1 with pos := bench.pos >>> 1 } = .next t2 ∧ t2.err = false :=
  ⟨_, _, _, rfl, rfl, rfl, rfl, rfl, rfl, rfl⟩

/-- A leaf, a proof of two elements, a nil root. -/
theorem witness_VerifySequenceGivesVerdict :
    grove.err = false ∧ 0 < grove.cfg.nslots ∧ 7 < grove.cfg.nslots ∧ 2 ≤ 32 ∧ 1 + 2 ≤ grove.cfg.nslots ∧
    grove.slot 0 = some (rep 1) ∧ [rep 2, rep 3].length = 2 ∧
    ∀ i, (hi : i < [rep 2, rep 3].length) → grove.slot (1 + i) = some [rep 2, rep 3][i] := by
  decide

theorem witness_NextPow2IsLeast : 5 ≤ 2 ^ 3 ∧ nextPow2 5 = 2 ^ 3 := by decide

/-- V5.6: a store one slot too long, the longest that fits, a nil leaf at the last slot. -/
theorem witness_BuildFaults :
    bench.cfg.nslots < 2 + 2 * nextPow2 2048 - 1 ∧ bench.cfg.nslots < 4096 + 2 * nextPow2 0 - 1 ∧
    1 + 2 * nextPow2 2048 - 1 ≤ bench.cfg.nslots ∧
    (4095 + 2 * nextPow2 1 - 1 ≤ bench.cfg.nslots ∧ 4095 ≤ 4095 ∧ 4095 < 4095 + 1 ∧ bench.slot 4095 = none) ∧
    (0 + 2 * nextPow2 3 - 1 ≤ bench.cfg.nslots ∧ 0 ≤ 2 ∧ 2 < 0 + 3 ∧ bench.slot 2 = none ∧
      ∀ x, x < 2 → bench.slot x ≠ none) := by
  decide

/-- The last operands; n = 0 at the last slot; three leaves with room. -/
theorem witness_BuildMakesTreeStore :
    (16383 < 2 ^ 14 ∧ 16383 < 2 ^ 14) ∧ 4095 + 2 * nextPow2 0 - 1 ≤ bench.cfg.nslots ∧
    (0 + 2 * nextPow2 3 - 1 ≤ grove.cfg.nslots ∧ (∀ i, i < 3 → grove.slot (0 + i) ≠ none) ∧
      grove.cfg.slotAw ≤ 14) ∧
    (2 + 1 < nextPow2 3) := by
  decide

/-- Three leaves, a BUILD of them that answers, and a place of level 1; and a BUILD of none. -/
theorem witness_BuildLevelsArePrefixes :
    0 + 2 * nextPow2 3 - 1 ≤ grove.cfg.nslots ∧ (∀ i, i < 3 → grove.slot (0 + i) ≠ none) ∧
    exec (.build 0 3) grove = .next (grove.buildResult 0 3) ∧
    (1 ≤ 3 ∧ 2 ^ 1 ≤ nextPow2 3 ∧ 1 < nextPow2 3 / 2 ^ 1) ∧
    exec (.build 4095 0) grove = .next (grove.buildResult 4095 0) ∧ 4095 + 2 * nextPow2 0 - 1 ≤ grove.cfg.nslots :=
  ⟨by decide, by decide, rfl, by decide, rfl, by decide⟩

/-- The same three leaves at two bases of two machines. -/
theorem witness_BuildRootDependsOnLeavesOnly :
    grove.cfg.hash = groveHigh.cfg.hash ∧ 0 + 2 * nextPow2 3 - 1 ≤ grove.cfg.nslots ∧
    8 + 2 * nextPow2 3 - 1 ≤ groveHigh.cfg.nslots ∧ (∀ i, i < 3 → grove.slot (0 + i) ≠ none) ∧
    (∀ i, i < 3 → grove.slot (0 + i) = groveHigh.slot (8 + i)) ∧
    exec (.build 0 3) grove = .next (grove.buildResult 0 3) ∧
    exec (.build 8 3) groveHigh = .next (groveHigh.buildResult 8 3) :=
  ⟨by decide, by decide, by decide, by decide, by decide, rfl, rfl⟩

/-- Five present leaves with room for every tree of the table. -/
theorem witness_BuildSmallTrees :
    grove.cfg.slotAw ≤ 14 ∧ 0 + 15 ≤ grove.cfg.nslots ∧ grove.slot 0 = some (rep 1) ∧
    grove.slot (0 + 1) = some (rep 2) ∧ grove.slot (0 + 2) = some (rep 3) ∧ grove.slot (0 + 3) = some (rep 4) ∧
    grove.slot (0 + 4) = some (rep 5) := by
  decide

/-- The last leaf of three, whose sibling is nil. -/
theorem witness_ProofOfBuiltLeafVerifies :
    3 < 2 ^ 14 ∧ 0 + 2 * nextPow2 3 - 1 ≤ grove.cfg.nslots ∧ (∀ i, i < 3 → grove.slot (0 + i) ≠ none) ∧ 2 < 3 ∧
    exec (.build 0 3) grove = .next (grove.buildResult 0 3) :=
  ⟨by decide, by decide, by decide, by decide, rfl⟩

theorem witness_CommandsLeaveHostRegisters :
    ∃ t t', exec (.sta 9) bench = .next t ∧ exec (.hbr 9) bench = .next t' ∧ t'.err = true :=
  ⟨_, _, rfl, rfl, by decide⟩

/-- Commands that do write CMPR, RIDX, a slot and ACC. -/
theorem witness_WritersOfEachItem :
    (∃ t, exec (.cmp 1) bench = .next t ∧ t.cmpr ≠ bench.cmpr) ∧
    (∃ t, exec (.build 7 0) bench = .next t ∧ t.ridx ≠ bench.ridx) ∧
    (∃ t, exec (.sta 9) bench = .next t ∧ ∃ k, t.slot k ≠ bench.slot k) ∧
    (∃ t, exec .clra bench = .next t ∧ t.acc ≠ bench.acc) ∧
    (∃ t, exec .nop bench = .next t ∧ t.cmpr = 0b10#2) :=
  ⟨⟨_, rfl, by decide⟩, ⟨_, rfl, by decide⟩, ⟨_, rfl, 9, by decide⟩, ⟨_, rfl, by decide⟩, ⟨_, rfl, by decide⟩⟩

theorem witness_StepRunsDecodedCommand :
    ((live 0x10004000 bench).agenda = .unit :: [] ∧ (live 0x10004000 bench).inflight = some 0x10004000 ∧
      (live 0x10004000 bench).err = false ∧ decode 0x10004000 = .ok (.lda 1)) ∧
    (bench.err = false ∧ decodeTableWord 32 0x10004000 = some (.lda 1)) := by
  decide

theorem witness_IssuedCommandExecutes :
    let s : State := { bench with agenda := [.host (.write 0x010 (encode (.lda 1))), .unit] }
    (Instr.lda 1).wf = true ∧ s.agenda = .host (.write 0x010 (encode (.lda 1))) :: .unit :: [] ∧
      s.held = none ∧ s.inflight = none ∧ s.err = false := by
  decide

/-- A completion that ends with ERR = 1. -/
theorem witness_FaultRecordsAndChangesNothingElse :
    ∃ t, (live 0x50014000 bench).agenda = .unit :: [] ∧ (live 0x50014000 bench).inflight = some 0x50014000 ∧
      (live 0x50014000 bench).err = false ∧ step (live 0x50014000 bench) = .next t ∧ t.err = true :=
  ⟨_, rfl, rfl, rfl, rfl, by decide⟩

/-- A CLRA issued, and one in flight, while ERR = 1. -/
theorem witness_CommandDroppedWhileErr :
    let e : State := { bench with err := true, ecode := 3 }
    ((asked (.write 0x010 0x40000000) e).err = true ∧
      (asked (.write 0x010 0x40000000) e).agenda = .host (.write 0x010 0x40000000) :: [] ∧
      (asked (.write 0x010 0x40000000) e).held = none ∧ (asked (.write 0x010 0x40000000) e).inflight = none) ∧
    ((live 0x40000000 e).err = true ∧ (live 0x40000000 e).agenda = .unit :: [] ∧
      (live 0x40000000 e).inflight = some 0x40000000) := by
  decide

theorem witness_StatusWriteAcknowledges :
    let s := asked (.write 0x00C 4) { bench with err := true, ecode := 3 }
    s.agenda = .host (.write 0x00C 4) :: [] ∧ s.held = none ∧ s.inflight = none := by
  decide

theorem witness_CompletionSetsDone :
    ∃ t, (live 0 { bench with ieDone := true }).agenda = .unit :: [] ∧
      (live 0 { bench with ieDone := true }).inflight = some 0 ∧
      step (live 0 { bench with ieDone := true }) = .next t ∧ ({ bench with ieDone := true } : State).ieDone = true :=
  ⟨_, rfl, rfl, rfl, rfl⟩

/-- A command in flight behind two reads of STATUS. -/
theorem witness_CommandInFlightCompletes :
    ({ bench with inflight := some 0, agenda := [.host statusRead, .host statusRead] } : State).busy = true := by
  decide

/-- Word 7, the last, and its neighbour byte 27. -/
theorem witness_HashWordsAreBigEndian : 7 < 8 ∧ (27 < 32 ∧ 27 / 4 ≠ 7) := by decide

theorem witness_IdleUnitPerformsTransaction :
    let s := asked (.write 0x014 5) bench
    s.agenda = .host (.write 0x014 5) :: [] ∧ s.held = none ∧ s.inflight = none := by
  decide

/-- The last word of ACC, nil and present, the last word of MSG, and the offset above it. -/
theorem witness_HostReadValues :
    (7 < 8 ∧ groveHigh.acc = none) ∧ (7 < 8 ∧ bench.acc = some (rep 0xaa)) ∧ 63 < bench.cfg.msgBytes / 4 ∧
    0x100 + bench.cfg.msgBytes ≤ 0x200 := by
  decide

theorem witness_HostWriteEffects :
    0x024 ∈ [0x000, 0x004, 0x01C, 0x020, 0x024] ∧ 7 < 8 ∧ 63 < bench.cfg.msgBytes / 4 ∧
    0x018 ∈ [0x000, 0x004, 0x008, 0x00C, 0x010, 0x014, 0x018, 0x01C, 0x020, 0x024] ∧
    (0x028 ≤ 0x028 ∧ 0x028 < 0x040) ∧ (0x060 ≤ 0x0FC ∧ 0x0FC < 0x100) ∧ 0x100 + bench.cfg.msgBytes ≤ 0x200 := by
  decide

/-- Each gap of the map at its edges, an offset that is no multiple of 4, and the edges of what is mapped. -/
theorem witness_UnmappedOffsetsAnswerErr :
    bench.cfg.wf = true ∧
    [0x001, 0x028, 0x03C, 0x060, 0x0FC, 0x200].map (fun off => bench.respond (.read off)) =
      List.replicate 6 HostResp.err ∧
    bench.respond (.write 0x028 0) = .err ∧
    [0x024, 0x040, 0x05C].all (fun off => decide (bench.respond (.read off) ≠ .err)) = true ∧
    bench.respond (.write 0x100 0) = .ok ∧ bench.respond (.write 0x1FC 0) = .ok := by
  decide

theorem witness_AccessTypes : 0x000 ∈ [0x000, 0x004, 0x01C, 0x020, 0x024] := by decide

/-- The eight words from the last to the first. -/
theorem witness_EightWordWritesLoadAccumulator : [7, 6, 5, 4, 3, 2, 1, 0].Perm (List.range 8) := by decide

theorem witness_WrittenWordsReadBack :
    (7 < 8 ∧ 0 < 8 ∧ 0 ≠ 7) ∧ (63 < bench.cfg.msgBytes / 4 ∧ 0 < bench.cfg.msgBytes / 4 ∧ 0 ≠ 63) := by
  decide

/-- `bench` with a command in flight, whatever is still to come, and a write of POS held or not. -/
theorem bench_inv (l : List Turn) (h : Option HostTxn) (hn : h ≠ some statusRead) (w : Option Word) :
    ({ bench with inflight := w, agenda := l, held := h } : State).Inv where
  cfg_wf := show Config.reference.wf = true by decide
  slots_wf := rfl
  slots_inside := fun k hk => by
    have hk : 2 ^ 12 ≤ k := hk
    show Memory.read bench.slots k = none
    simp only [bench, Memory.read]
    rw [if_neg (by omega), if_neg (by omega)]
  msg_wf := rfl
  msg_inside := fun _ _ => rfl
  code_clear := fun _ => rfl
  code_set := fun h => by simp [bench, State.reset, State.afterReset] at h
  busy_not_done := fun _ => rfl
  held_not_status := hn

/-- A STATUS read comes, a write of POS comes, a write of POS is held with nothing and with a read to come. -/
theorem witness_HoldWhileBusy :
    let x : HostTxn := .write 0x014 5
    let s (l : List Turn) (h : Option HostTxn) : State := { bench with inflight := some 0, agenda := l, held := h }
    ((s [.host statusRead] none).Inv ∧ (s [.host statusRead] none).inflight ≠ none ∧
      (s [.host statusRead] none).held = none ∧ (s [.host statusRead] none).agenda = .host statusRead :: []) ∧
    ((s [.host x] none).Inv ∧ (s [.host x] none).inflight ≠ none ∧ x ≠ statusRead ∧
      (s [.host x] none).held = none ∧ (s [.host x] none).agenda = .host x :: []) ∧
    ((s [] (some x)).Inv ∧ (s [] (some x)).held = some x ∧ (s [] (some x)).agenda = [] ∧
      ∃ s1, step (s [] (some x)) = .next s1) ∧
    ((s [.host x] (some x)).Inv ∧ (s [.host x] (some x)).agenda = .host x :: []) :=
  ⟨⟨bench_inv _ _ (by decide) _, by decide, rfl, rfl⟩, ⟨bench_inv _ _ (by decide) _, by decide, by decide, rfl, rfl⟩,
    ⟨bench_inv _ _ (by decide) _, rfl, rfl, _, rfl⟩, ⟨bench_inv _ _ (by decide) _, rfl⟩⟩

/-- A write of POS by the host, and a STATUS read with a command in flight. -/
theorem witness_OnlyCompletionsWriteSlots :
    (∃ t, step (asked (.write 0x014 5) bench) = .next t ∧ t.resets = bench.resets ∧
      (asked (.write 0x014 5) bench).inflight = none) ∧
    (∃ t, step (asked statusRead (bench.issue 0)) = .next t ∧ t.resets = bench.resets ∧ t.inflight ≠ none) :=
  ⟨⟨_, rfl, rfl, rfl⟩, ⟨_, rfl, rfl, by decide⟩⟩

/-- A write of the neighbouring word. -/
theorem witness_MessageBytesAreStable :
    ∃ t, step (asked (.write 0x104 5) bench) = .next t ∧ t.resets = bench.resets ∧
      ∀ v r, t.log ≠ (.write (0x100 + 4 * (3 / 4)) v, r) :: (asked (.write 0x104 5) bench).log :=
  ⟨_, rfl, rfl, fun v r h => by
    have h' := (List.cons.inj h).1
    simp [Prod.mk.injEq] at h'⟩

/-- The invariant holds with a command in flight, and the step answers. -/
theorem witness_StepKeepsInv :
    ∃ t, ({ bench with inflight := some 0x10004000, agenda := [.unit], held := none } : State).Inv ∧
      step { bench with inflight := some 0x10004000, agenda := [.unit], held := none } = .next t :=
  ⟨_, bench_inv _ _ (by decide) _, rfl⟩

theorem witness_ResetStateMeetsInv : bench.cfg.wf = true := by decide

theorem witness_ParametersAreFixed : ∃ t, step (live 0x40000000 bench) = .next t := ⟨_, rfl⟩

/-- A reset with a command in flight and a transaction held. -/
theorem witness_ResetLeavesResetValues :
    ({ bench with agenda := [.reset], inflight := some 0, held := some (.write 0x014 5) } : State).agenda =
      .reset :: [] :=
  rfl

theorem witness_ResetDrawsMessageBytesAnew :
    ({ bench with agenda := [.reset, .unit] } : State).agenda = .reset :: [.unit] :=
  rfl

end Sys2Proof.Tests
end

section
/-! The parameters (00_scope.md R2, R3, R4) along the layers of a step: a command, the unit's `Complete`, a host
transaction, a reset. -/

namespace Sys2Proof.Machine

theorem exec_cfg {i : Instr} {s t : State} (h : exec i s = .next t) : t.cfg = s.cfg := by
  rcases exec_cases i s with ⟨c, hfault⟩ | ⟨m, a, q, r, heffect⟩
  · cases hfault.symm.trans h
    exact State.takeFault_cfg s c (encode i)
  · cases heffect.symm.trans h
    rfl

theorem execWord_cfg {w : Word} {s t : State} (h : execWord w s = .next t) : t.cfg = s.cfg := by
  rcases execWord_cases w s with ⟨c, hillegal⟩ | ⟨i, _, hexec⟩
  · cases hillegal.symm.trans h
    exact State.takeFault_cfg s c w
  · exact exec_cfg (hexec.symm.trans h)

theorem State.complete_cfg {s t : State} (h : s.complete = .next t) : t.cfg = s.cfg := by
  rcases s.complete_cases with ⟨_, hidle⟩ | ⟨w, _, _, hdropped⟩ | ⟨w, u, _, _, hword, hdone⟩
  · cases hidle.symm.trans h
    rfl
  · cases hdropped.symm.trans h
    simp
  · cases hdone.symm.trans h
    simpa using execWord_cfg hword

@[simp] theorem State.perform_cfg (s : State) (t : HostTxn) : (s.perform t).cfg = s.cfg := by
  obtain ⟨hcfg, _⟩ := s.effect_frame t
  simpa [State.perform] using hcfg

@[simp] theorem State.present_cfg (s : State) (t : HostTxn) : (s.present t).cfg = s.cfg := by
  rcases s.present_cases t with ⟨_, hperformed⟩ | ⟨_, _, hheld⟩
  · rw [hperformed, State.perform_cfg]
  · rw [hheld, State.setHeld_cfg]

theorem State.proceed_cfg {s t : State} (h : s.proceed = .next t) : t.cfg = s.cfg := by
  rcases s.proceed_cases with ⟨_, hcomplete⟩ | ⟨x, _, _, hperform⟩ | ⟨_, _, hidle⟩
  · exact State.complete_cfg (hcomplete.symm.trans h)
  · cases hperform.symm.trans h
    simp
  · cases hidle.symm.trans h
    rfl

/-- Settles O56, by the cases of a step. -/
theorem parametersAreFixed : Obligations.ParametersAreFixed := by
  intro s t h
  rcases step_cases s with
    ⟨_, hproceed⟩ | ⟨l, _, hreset⟩ | ⟨l, _, hunit⟩ | ⟨_, _, _, _, _, hproceed⟩ | ⟨x, l, _, _, hpresent⟩
  · exact State.proceed_cfg (hproceed.symm.trans h)
  · cases hreset.symm.trans h
    simp
  · simpa using State.complete_cfg (hunit.symm.trans h)
  · exact State.proceed_cfg (hproceed.symm.trans h)
  · cases hpresent.symm.trans h
    simp

end Sys2Proof.Machine
end

section
/-! What a command does, by the command: the "Written by" column of 10_state.md R10, from which the frames of the
commands and the invariant's step are read off. -/

namespace Sys2Proof.Machine

/-- Everything command `i` can make of state `s`: a fault's record, nothing, or the write of the items that the
column "Written by" of R10 gives to that command. What is stored in a slot lies inside the slot memory. -/
inductive CommandEffect (s : State) : Instr → State → Prop
  | fault {i : Instr} (c : FaultCause) : CommandEffect s i (s.takeFault c (encode i))
  | unchanged {i : Instr} : CommandEffect s i s
  | acc {i : Instr} (v : Option Bytes32)
      (writer : i.mnemonic ∈ ["LDA", "CLRA", "HBR", "HBL", "FOLD", "DHASH"]) : CommandEffect s i (s.setAcc v)
  | sta (a : Nat) (inside : a < s.cfg.nslots) :
      CommandEffect s (.sta a) (s.setSlots (Memory.put a s.acc s.slots))
  | clrs (a n : Nat) : CommandEffect s (.clrs a n) (s.setSlots (Memory.clear a n s.slots))
  | cmp (a : Nat) : CommandEffect s (.cmp a) (s.setCmpr (cmprBits (compareHash s.acc (s.slot a))))
  | build (b n : Nat) (inside : b + 2 * nextPow2 n - 1 ≤ s.cfg.nslots) :
      CommandEffect s (.build b n) (s.buildResult b n)

/-- A command whose only check is a range check. -/
theorem CommandEffect.of_rangeCheck {i : Instr} {s t u : State} {p : Prop} [Decidable p]
    (hok : ¬p → CommandEffect s i u) (h : (if p then s.raise .range i else .next u) = .next t) :
    CommandEffect s i t := by
  split at h
  next =>
    cases h
    exact .fault .range
  next hp =>
    cases h
    exact hok hp

theorem CommandEffect.of_branchHash {i : Instr} {s t : State} {a : Nat} {f : Bytes32 → Bytes32 → Bytes32}
    (writer : i.mnemonic ∈ ["LDA", "CLRA", "HBR", "HBL", "FOLD", "DHASH"]) (h : branchHash i a f s = .next t) :
    CommandEffect s i t := by
  rcases branchHash_cases i a f s with
    ⟨_, hrange⟩ | ⟨_, _, hnilAcc⟩ | ⟨_, _, _, hnilSlot⟩ | ⟨x, e, _, _, _, hhash⟩
  · cases hrange.symm.trans h
    exact .fault _
  · cases hnilAcc.symm.trans h
    exact .fault _
  · cases hnilSlot.symm.trans h
    exact .fault _
  · cases hhash.symm.trans h
    exact .acc _ writer

theorem CommandEffect.of_execFold {s t : State} {a n : Nat} (h : execFold a n s = .next t) :
    CommandEffect s (.fold a n) t := by
  rcases execFold_cases a n s with
    ⟨_, hrange⟩ | ⟨_, _, hnilAcc⟩ | ⟨_, _, hempty⟩ | ⟨x, k, _, _, hnilSlot⟩ | ⟨x, es, _, _, _, _, hfold⟩
  · cases hrange.symm.trans h
    exact .fault _
  · cases hnilAcc.symm.trans h
    exact .fault _
  · cases hempty.symm.trans h
    exact .unchanged
  · cases hnilSlot.symm.trans h
    exact .fault _
  · cases hfold.symm.trans h
    exact .acc _ (by simp [Instr.mnemonic])

theorem CommandEffect.of_execBuild {s t : State} {b n : Nat} (h : execBuild b n s = .next t) :
    CommandEffect s (.build b n) t := by
  rcases execBuild_cases b n s with ⟨_, hrange⟩ | ⟨k, _, hnilLeaf⟩ | ⟨es, _, hinside, hbuild⟩
  · cases hrange.symm.trans h
    exact .fault _
  · cases hnilLeaf.symm.trans h
    exact .fault _
  · cases hbuild.symm.trans h
    exact .build b n hinside

theorem CommandEffect.of_exec {i : Instr} {s t : State} (h : exec i s = .next t) : CommandEffect s i t := by
  cases i with
  | nop =>
    cases h
    exact .unchanged
  | clra =>
    cases h
    exact .acc _ (by simp [Instr.mnemonic])
  | lda a => exact .of_rangeCheck (fun _ => .acc _ (by simp [Instr.mnemonic])) h
  | dhash => exact .of_rangeCheck (fun _ => .acc _ (by simp [Instr.mnemonic])) h
  | sta a => exact .of_rangeCheck (fun hrange => .sta a (Nat.lt_of_not_le hrange)) h
  | clrs a n => exact .of_rangeCheck (fun _ => .clrs a n) h
  | cmp a => exact .of_rangeCheck (fun _ => .cmp a) h
  | hbr a => exact .of_branchHash (by simp [Instr.mnemonic]) h
  | hbl a => exact .of_branchHash (by simp [Instr.mnemonic]) h
  | fold a n => exact .of_execFold h
  | build b n => exact .of_execBuild h

/-- No comparison gives the reset value of CMPR (10_state.md R24). -/
theorem cmprBits_ne_reset (c : Int) : cmprBits c ≠ 0b10#2 := by
  unfold cmprBits
  split_ifs <;> decide

@[simp] theorem State.buildResult_cmpr (s : State) (b n : Nat) : (s.buildResult b n).cmpr = s.cmpr := rfl

/-- Settles O33, by the effects of a command. -/
theorem writersOfEachItem : Obligations.WritersOfEachItem := by
  intro i s t h
  cases CommandEffect.of_exec h with
  | fault => simp
  | unchanged => simp
  | acc v writer =>
    have hlisted : i.mnemonic ∈ ["LDA", "CLRA", "HBR", "HBL", "FOLD", "BUILD", "DHASH"] := by
      simp only [List.mem_cons] at writer ⊢
      tauto
    simp [hlisted]
  | sta a => simp [Instr.mnemonic]
  | clrs a n => simp [Instr.mnemonic]
  | cmp a => simp [Instr.mnemonic, cmprBits_ne_reset]
  | build b n => simp [Instr.mnemonic]

/-- Settles O32: neither a fault's record nor a command's own effect reaches a host register. -/
theorem commandsLeaveHostRegisters : Obligations.CommandsLeaveHostRegisters := by
  intro i s t h
  rcases exec_cases i s with ⟨c, hfault⟩ | ⟨m, a, q, r, heffect⟩
  · cases hfault.symm.trans h
    simp [State.msgByte]
  · cases heffect.symm.trans h
    simp [State.msgByte]

end Sys2Proof.Machine
end

section
/-! The completion of a command (60_exceptions.md R171) and the acknowledgement of STATUS (R177). -/

namespace Sys2Proof.Machine

/-- `Exec(w)` writes neither INFLIGHT nor CTRL.IE_DONE, and leaves the turns to come. -/
theorem execWord_frame {w : Word} {s t : State} (h : execWord w s = .next t) :
    t.inflight = s.inflight ∧ t.ieDone = s.ieDone ∧ t.agenda = s.agenda := by
  rcases execWord_cases w s with ⟨c, hillegal⟩ | ⟨i, _, hexec⟩
  · cases hillegal.symm.trans h
    simp
  · obtain ⟨_, _, _, _, _, hieDone, _, _, hinflight, _, hagenda, _⟩ :=
      commandsLeaveHostRegisters i s t (hexec.symm.trans h)
    exact ⟨hinflight, hieDone, hagenda⟩

/-- Whatever becomes of the command in flight, its completion frees the unit and sets DONE. -/
theorem State.complete_done {s t : State} {w : Word} (hw : s.inflight = some w) (h : s.complete = .next t) :
    t.inflight = none ∧ t.done = true ∧ t.ieDone = s.ieDone ∧ t.agenda = s.agenda := by
  rcases s.complete_cases with ⟨hnone, _⟩ | ⟨v, _, _, hdropped⟩ | ⟨v, u, _, _, hword, hdone⟩
  · cases hnone.symm.trans hw
  · cases hdropped.symm.trans h
    simp
  · cases hdone.symm.trans h
    simpa using execWord_frame hword

/-- The unit's turn is its `Complete` step. -/
theorem step_unit {s : State} {l : List Turn} (ha : s.agenda = .unit :: l) :
    step s = (s.setAgenda l).complete := by
  simp only [step, State.turn, ha]

/-- Settles O39: the unit's turn is the completion, and DONE with IE_DONE raises irq. -/
theorem completionSetsDone : Obligations.CompletionSetsDone := by
  intro s t w l ha hw h
  obtain ⟨hinflight, hdone, hieDone, hagenda⟩ :=
    State.complete_done (s := s.setAgenda l) hw ((step_unit ha).symm.trans h)
  refine ⟨hinflight, hdone, hagenda, fun hie => ?_⟩
  have hieDone' : t.ieDone = true := hieDone.trans hie
  simp [State.irq, hdone, hieDone']

/-- A transaction presented to an idle unit is performed at once (20_memory.md R53). -/
theorem step_host_of_idle {s : State} {t : HostTxn} {l : List Turn} (ha : s.agenda = .host t :: l)
    (hh : s.held = none) (hi : s.inflight = none) :
    step s = .next { s.effect t with agenda := l, log := (t, s.respond t) :: s.log } := by
  have hstep : step s = .next ((s.setAgenda l).present t) := by
    simp only [step, State.turn, ha, hh]
  have hpresent : (s.setAgenda l).present t = (s.setAgenda l).perform t := by
    simp [State.present, State.performs, State.busy, hi]
  have hheld : (s.setAgenda l).setHeld (s.effect t).held = s.setAgenda l := by
    obtain ⟨_, _, _, _, _, _, _, _, hkept, _⟩ := s.effect_frame t
    rw [hkept]
    rfl
  rw [hstep, hpresent, ← hheld, State.perform_eq]

/-- Settles O38: offset 0x00C selects STATUS under every configuration, and `State.writeStatus_eq` is its write. -/
theorem statusWriteAcknowledges : Obligations.StatusWriteAcknowledges := by
  intro s v l ha hh hi
  have hreg : regAt s.cfg 0x00C = some .status := rfl
  have heffect : s.effect (.write 0x00C v) = s.writeStatus v := by
    simp only [State.effect, hreg, State.writeReg]
  have hrespond : s.respond (.write 0x00C v) = .ok := by
    simp only [State.respond, hreg]
  rw [step_host_of_idle ha hh hi, heffect, hrespond, State.writeStatus_eq]

end Sys2Proof.Machine
end

section
/-! The invariant along the layers of a step: the updates of the state, a write of a register, a command, the
unit's `Complete`, a host transaction, a reset. -/

namespace Sys2Proof.Machine

variable {s : State}

/-! ### Updates of the state -/

theorem State.Inv.setAcc (h : s.Inv) (v : Option Bytes32) : (s.setAcc v).Inv := { h with }
theorem State.Inv.setCmpr (h : s.Inv) (v : BitVec 2) : (s.setCmpr v).Inv := { h with }
theorem State.Inv.setRidx (h : s.Inv) (v : BitVec 14) : (s.setRidx v).Inv := { h with }
theorem State.Inv.setPos (h : s.Inv) (v : Word) : (s.setPos v).Inv := { h with }
theorem State.Inv.setMlen (h : s.Inv) (v : Word) : (s.setMlen v).Inv := { h with }
theorem State.Inv.setCtrl (h : s.Inv) (v : Word) : (s.setCtrl v).Inv := { h with }
theorem State.Inv.setAgenda (h : s.Inv) (l : List Turn) : (s.setAgenda l).Inv := { h with }
theorem State.Inv.record (h : s.Inv) (t : HostTxn) (r : HostResp) : (s.record t r).Inv := { h with }

theorem State.Inv.setHeld (h : s.Inv) {t : Option HostTxn} (ht : t ≠ some statusRead) : (s.setHeld t).Inv :=
  { h with held_not_status := ht }

theorem State.Inv.setSlots (h : s.Inv) {m : Memory Bytes32} (hwf : Memory.wf m = true)
    (hinside : ∀ k, s.cfg.nslots ≤ k → Memory.read m k = none) : (s.setSlots m).Inv :=
  { h with slots_wf := hwf, slots_inside := hinside }

theorem State.Inv.clearDone (h : s.Inv) : (s.setDone false).Inv :=
  { h with busy_not_done := fun _ => rfl }

theorem State.Inv.clearInflight (h : s.Inv) : (s.setInflight none).Inv :=
  { h with busy_not_done := by simp [State.busy] }

/-- DONE may be set once no command is in flight. -/
theorem State.Inv.raiseDone (h : s.Inv) (hi : s.inflight = none) : (s.setDone true).Inv :=
  { h with busy_not_done := by simp [State.busy, hi] }

theorem State.Inv.issue (h : s.Inv) (w : Word) : (s.issue w).Inv :=
  { h with busy_not_done := fun _ => rfl }

theorem State.Inv.acknowledge (h : s.Inv) : s.acknowledge.Inv :=
  { h with code_clear := fun _ => rfl, code_set := by simp }

/-- The three codes of 60_exceptions.md R172. -/
theorem FaultCause.code_produced (c : FaultCause) : c.code = 1 ∨ c.code = 2 ∨ c.code = 3 := by
  cases c <;> simp [FaultCause.code]

theorem State.Inv.takeFault (h : s.Inv) (c : FaultCause) (w : Word) : (s.takeFault c w).Inv :=
  { h with code_clear := by simp, code_set := fun _ => c.code_produced }

/-! ### Reset -/

theorem State.afterReset_inv {c : Config} (hc : c.wf = true) (k : Nat) : (State.afterReset c k).Inv where
  cfg_wf := hc
  slots_wf := rfl
  slots_inside _ _ := rfl
  msg_wf := rfl
  msg_inside _ _ := rfl
  code_clear _ := rfl
  code_set := by simp [State.afterReset]
  busy_not_done _ := rfl
  held_not_status := by simp [State.afterReset]

theorem State.hardReset_inv (hc : s.cfg.wf = true) : s.hardReset.Inv :=
  { State.afterReset_inv hc (s.resets + 1) with }

/-- Settles O55: the reference parameters are in range, and a reset keeps the parameters. -/
theorem resetStateMeetsInv : Obligations.ResetStateMeetsInv :=
  ⟨State.afterReset_inv (by decide) 0, fun _ hc => State.hardReset_inv hc⟩

/-! ### Host transactions -/

/-- The message words of the map lie inside the buffer (20_memory.md R42). -/
theorem regAt_msg {c : Config} {off k : Nat} (h : regAt c off = some (.msg k)) : k < c.msgBytes / 4 := by
  unfold regAt at h
  split_ifs at h with _ _ _ hinside
  · simp at h
  · simp only [Option.some.injEq, HostReg.msg.injEq] at h
    omega
  · split at h <;> simp at h

theorem State.Inv.writeStatus (h : s.Inv) (v : Word) : (s.writeStatus v).Inv := by
  have hdone : (if v.getLsbD 1 then s.setDone false else s).Inv := by
    split
    · exact h.clearDone
    · exact h
  unfold State.writeStatus
  dsimp only
  split
  · exact hdone.acknowledge
  · exact hdone

theorem State.Inv.writeMsgWord (h : s.Inv) {k : Nat} (hk : k < s.cfg.msgBytes / 4) (v : Word) :
    (s.writeMsgWord k v).Inv :=
  { h with
    msg_wf := State.wf_writeMsgWord k v h.msg_wf
    msg_inside := fun a ha => by
      have ha' : s.cfg.msgBytes ≤ a := ha
      rw [State.writeMsgWord_read, if_neg (by omega)]
      exact h.msg_inside a ha' }

theorem State.Inv.writeReg (h : s.Inv) {off : Nat} {r : HostReg} (hr : regAt s.cfg off = some r) (v : Word) :
    (s.writeReg v r).Inv := by
  cases r with
  | id => exact h
  | cap => exact h
  | ctrl => exact h.setCtrl v
  | status => exact h.writeStatus v
  | cmd => exact h.issue v
  | pos => exact h.setPos v
  | mlen => exact h.setMlen v
  | ridx => exact h
  | ecmd => exact h
  | eidx => exact h
  | acc j => exact h.setAcc _
  | msg k => exact h.writeMsgWord (regAt_msg hr) v

theorem State.Inv.effect (h : s.Inv) (t : HostTxn) : (s.effect t).Inv := by
  rcases s.effect_cases t with hnothing | ⟨off, v, r, _, hr, hwrite⟩
  · rw [hnothing]
    exact h
  · rw [hwrite]
    exact h.writeReg hr v

theorem State.Inv.perform (h : s.Inv) (t : HostTxn) : (s.perform t).Inv :=
  (h.effect t).record t (s.respond t)

/-- A STATUS read is performed and never held (20_memory.md R53). -/
theorem State.Inv.present (h : s.Inv) (t : HostTxn) : (s.present t).Inv := by
  rcases s.present_cases t with ⟨_, hperformed⟩ | ⟨_, hnotStatus, hheld⟩
  · rw [hperformed]
    exact h.perform t
  · rw [hheld]
    exact h.setHeld (by simpa using hnotStatus)

/-! ### Commands -/

theorem State.Inv.putSlot (h : s.Inv) {a : Nat} (ha : a < s.cfg.nslots) (v : Option Bytes32) :
    (s.setSlots (Memory.put a v s.slots)).Inv := by
  refine h.setSlots (Memory.wf_put a v h.slots_wf) fun k hk => ?_
  rw [Memory.read_put, if_neg (by omega)]
  exact h.slots_inside k hk

theorem State.Inv.clearSlots (h : s.Inv) (a n : Nat) : (s.setSlots (Memory.clear a n s.slots)).Inv := by
  refine h.setSlots (Memory.wf_clear a n h.slots_wf) fun k hk => ?_
  rw [Memory.read_clear]
  split
  · rfl
  · exact h.slots_inside k hk

/-- A store that fits writes no slot past the end (43_build.md R143). -/
theorem State.Inv.buildResult (h : s.Inv) {b n : Nat} (hfit : b + 2 * nextPow2 n - 1 ≤ s.cfg.nslots) :
    (s.buildResult b n).Inv := by
  have hslots : (s.setSlots (buildStore s.cfg b n s.slots)).Inv := by
    refine h.setSlots (wf_buildStore s.cfg b n h.slots_wf) fun k hk => ?_
    rw [buildStore_read_other _ _ _ _ _ (.inr (hfit.trans hk))]
    exact h.slots_inside k hk
  exact (hslots.setRidx _).setAcc _

theorem State.Inv.exec (h : s.Inv) {i : Instr} {t : State} (hexec : exec i s = .next t) : t.Inv := by
  cases CommandEffect.of_exec hexec with
  | fault c => exact h.takeFault c _
  | unchanged => exact h
  | acc v => exact h.setAcc v
  | sta a hinside => exact h.putSlot hinside _
  | clrs a n => exact h.clearSlots a n
  | cmp a => exact h.setCmpr _
  | build b n hinside => exact h.buildResult hinside

theorem State.Inv.execWord (h : s.Inv) {w : Word} {t : State} (hword : execWord w s = .next t) : t.Inv := by
  rcases execWord_cases w s with ⟨c, hillegal⟩ | ⟨i, _, hexec⟩
  · cases hillegal.symm.trans hword
    exact h.takeFault c w
  · exact h.exec (hexec.symm.trans hword)

/-! ### Steps -/

theorem State.Inv.complete (h : s.Inv) {t : State} (hcomplete : s.complete = .next t) : t.Inv := by
  rcases s.complete_cases with ⟨_, hidle⟩ | ⟨w, _, _, hdropped⟩ | ⟨w, u, _, _, hword, hdone⟩
  · cases hidle.symm.trans hcomplete
    exact h
  · cases hdropped.symm.trans hcomplete
    exact h.clearInflight.raiseDone rfl
  · cases hdone.symm.trans hcomplete
    obtain ⟨hinflight, _⟩ := execWord_frame hword
    exact (h.clearInflight.execWord hword).raiseDone hinflight

theorem State.Inv.proceed (h : s.Inv) {t : State} (hproceed : s.proceed = .next t) : t.Inv := by
  rcases s.proceed_cases with ⟨_, hcomplete⟩ | ⟨x, _, _, hperform⟩ | ⟨_, _, hidle⟩
  · exact h.complete (hcomplete.symm.trans hproceed)
  · cases hperform.symm.trans hproceed
    exact (h.setHeld (by simp)).perform x
  · cases hidle.symm.trans hproceed
    exact h

/-- Settles O54, by the cases of a step. -/
theorem stepKeepsInv : Obligations.StepKeepsInv := by
  intro s t h hstep
  rcases step_cases s with
    ⟨_, hproceed⟩ | ⟨l, _, hreset⟩ | ⟨l, _, hunit⟩ | ⟨_, _, _, _, _, hproceed⟩ | ⟨x, l, _, _, hpresent⟩
  · exact h.proceed (hproceed.symm.trans hstep)
  · cases hreset.symm.trans hstep
    exact State.hardReset_inv h.cfg_wf
  · exact (h.setAgenda l).complete (hunit.symm.trans hstep)
  · exact h.proceed (hproceed.symm.trans hstep)
  · cases hpresent.symm.trans hstep
    exact (h.setAgenda l).present x

end Sys2Proof.Machine
end

section
/-! The words of the host port (20_memory.md R44 to R49): as numbers, as bytes, and as read after a write. -/

namespace Sys2Proof.Machine

/-! ### Packing -/

/-- Four bytes, the first in bits 31:24, as a number (20_memory.md R44). -/
theorem toNat_bytes (a b c d : Byte) :
    (a ++ b ++ c ++ d).toNat = a.toNat * 2 ^ 24 + b.toNat * 2 ^ 16 + c.toNat * 2 ^ 8 + d.toNat := by
  have step (x : Nat) (y : Byte) : x <<< 8 ||| y.toNat = x * 2 ^ 8 + y.toNat := by
    rw [← Nat.shiftLeft_add_eq_or_of_lt y.isLt, Nat.shiftLeft_eq]
  simp only [BitVec.toNat_append, step]
  omega

theorem toNat_wordByte (v : Word) (r : Nat) : (wordByte v r).toNat = v.toNat / 2 ^ (24 - 8 * r) % 2 ^ 8 := by
  simp only [wordByte, BitVec.extractLsb'_toNat, Nat.shiftRight_eq_div_pow]

/-- Byte `r` of `word(h, j)` is stored byte 4j + r. -/
theorem wordByte_hashWord (h : Bytes32) (j : Nat) {r : Nat} (hr : r < 4) :
    wordByte (hashWord h j) r = h.byte (4 * j + r) := by
  apply BitVec.eq_of_toNat_eq
  rw [toNat_wordByte, hashWord, toNat_bytes]
  have h0 := (h.byte (4 * j)).isLt
  have h1 := (h.byte (4 * j + 1)).isLt
  have h2 := (h.byte (4 * j + 2)).isLt
  have h3 := (h.byte (4 * j + 3)).isLt
  interval_cases r
  · simp only [Nat.add_zero]
    omega
  all_goals omega

/-- Settles O43, by the bytes of `setword`. -/
theorem hashWordsAreBigEndian : Obligations.HashWordsAreBigEndian := by
  intro h j v hj
  have inWord (r : Nat) (hr : r < 4) : (setHashWord h j v).byte (4 * j + r) = wordByte v r := by
    rw [setHashWord_byte _ _ _ _ hj, if_pos (by omega), show (4 * j + r) % 4 = r by omega]
  refine ⟨toNat_bytes _ _ _ _, inWord 0 (by omega), inWord 1 (by omega), inWord 2 (by omega),
    inWord 3 (by omega), fun i _ hi => ?_⟩
  rw [setHashWord_byte _ _ _ _ hj, if_neg hi]

/-! ### Words written and read back -/

@[simp] theorem Bytes32.zero_byte (i : Nat) : Bytes32.zero.byte i = 0#8 := by
  simp only [Bytes32.zero, Bytes32.byte, List.getD_eq_getElem?_getD, List.getElem?_replicate]
  split <;> rfl

@[simp] theorem hashWord_zero (j : Nat) : hashWord Bytes32.zero j = 0 := by
  simp [hashWord]

/-- A nil ACC reads as 32 zero bytes do (20_memory.md R45, R46). -/
theorem State.accWord_eq (s : State) (j : Nat) : s.accWord j = hashWord (s.acc.getD Bytes32.zero) j := by
  unfold State.accWord
  cases s.acc with
  | none => exact (hashWord_zero j).symm
  | some h => rfl

/-- An ACC word written reads back, the others read as before (20_memory.md R45, R46). -/
theorem State.writeAccWord_accWord (s : State) {j : Nat} (hj : j < 8) (v : Word) (i : Nat) :
    (s.writeAccWord j v).accWord i = if i = j then v else s.accWord i := by
  rw [State.accWord_eq s]
  exact hashWord_setHashWord _ j i v hj

/-- A message word written reads back, the others read as before (20_memory.md R48, R49). -/
theorem State.writeMsgWord_msgWord (s : State) (k : Nat) (v : Word) (i : Nat) :
    (s.writeMsgWord k v).msgWord i = if i = k then v else s.msgWord i := by
  have byteOf (r : Nat) (hr : r < 4) : (s.writeMsgWord k v).msgByte (4 * i + r) =
      if i = k then wordByte v r else s.msgByte (4 * i + r) := by
    rw [State.writeMsgWord_msgByte, show (4 * i + r) / 4 = i by omega, show (4 * i + r) % 4 = r by omega]
  have b0 := byteOf 0 (by omega)
  have b1 := byteOf 1 (by omega)
  have b2 := byteOf 2 (by omega)
  have b3 := byteOf 3 (by omega)
  rw [Nat.add_zero] at b0
  rw [State.msgWord, b0, b1, b2, b3]
  split
  · exact wordByte_append v
  · rfl

end Sys2Proof.Machine
end

section
/-! The register map (10_state.md section 6, 20_memory.md R42) and what each transaction does at a register. -/

namespace Sys2Proof.Machine

variable {s : State} {c : Config} {off : Nat} {r : HostReg}

/-! ### Offsets -/

theorem regAt_acc (c : Config) {j : Nat} (hj : j < 8) : regAt c (0x040 + 4 * j) = some (.acc j) := by
  unfold regAt
  rw [if_neg (by omega), if_pos (by omega), show (0x040 + 4 * j - 0x040) / 4 = j by omega]

theorem regAt_msgWord {k : Nat} (hk : k < c.msgBytes / 4) : regAt c (0x100 + 4 * k) = some (.msg k) := by
  unfold regAt
  rw [if_neg (by omega), if_neg (by omega), if_pos (by omega), show (0x100 + 4 * k - 0x100) / 4 = k by omega,
    if_pos hk]

/-- The one offset of a message word. -/
theorem regAt_msg_offset {k : Nat} (h : regAt c off = some (.msg k)) : off = 0x100 + 4 * k := by
  unfold regAt at h
  split_ifs at h with _ _ _ hinside
  · simp at h
  · simp only [Option.some.injEq, HostReg.msg.injEq] at h
    omega
  · split at h <;> simp at h

/-- The offsets without a register: those of log 8, the two gaps of the map, and what lies above the buffer. -/
theorem regAt_eq_none_iff : regAt c off = none ↔
    off % 4 ≠ 0 ∨ (0x028 ≤ off ∧ off < 0x040) ∨ (0x060 ≤ off ∧ off < 0x100) ∨
      0x100 + 4 * (c.msgBytes / 4) ≤ off := by
  unfold regAt
  split_ifs with hstep hacc hmsg hinside
  · simp [hstep]
  · simp only [false_iff]
    omega
  · simp only [false_iff]
    omega
  · simp only [true_iff]
    omega
  · split
    case h_11 =>
      simp only [imp_false, true_iff] at *
      omega
    all_goals
      simp only [reduceCtorEq, false_iff]
      omega

/-- The offsets without a register that the rules name, MSGBYTES being any number. -/
theorem regAt_unmapped
    (h : (0x028 ≤ off ∧ off < 0x040) ∨ (0x060 ≤ off ∧ off < 0x100) ∨ 0x100 + c.msgBytes ≤ off) :
    regAt c off = none :=
  regAt_eq_none_iff.mpr (by omega)

/-! ### Transactions at a register -/

theorem State.respond_read (h : regAt s.cfg off = some r) : s.respond (.read off) = .value (s.readReg r) := by
  simp only [State.respond, h]

theorem State.respond_write (h : regAt s.cfg off = some r) (v : Word) : s.respond (.write off v) = .ok := by
  simp only [State.respond, h]

theorem State.effect_write (h : regAt s.cfg off = some r) (v : Word) :
    s.effect (.write off v) = s.writeReg v r := by
  simp only [State.effect, h]

theorem State.respond_read_err_iff : s.respond (.read off) = .err ↔ regAt s.cfg off = none := by
  cases h : regAt s.cfg off <;> simp [State.respond, h]

theorem State.respond_write_err_iff {v : Word} : s.respond (.write off v) = .err ↔ regAt s.cfg off = none := by
  cases h : regAt s.cfg off <;> simp [State.respond, h]

theorem State.effect_unmapped (h : regAt s.cfg off = none) (v : Word) : s.effect (.write off v) = s := by
  simp only [State.effect, h]

/-! ### The read-only registers -/

/-- ID, CAP, RIDX, ECMD and EIDX are registers that a write leaves alone (20_memory.md R43, R57). -/
theorem regAt_readOnly (c : Config) (h : off ∈ [0x000, 0x004, 0x01C, 0x020, 0x024]) :
    ∃ r, regAt c off = some r ∧ ∀ (s : State) (v : Word), s.writeReg v r = s := by
  simp only [List.mem_cons, List.not_mem_nil, or_false] at h
  rcases h with rfl | rfl | rfl | rfl | rfl
  · exact ⟨.id, rfl, fun _ _ => rfl⟩
  · exact ⟨.cap, rfl, fun _ _ => rfl⟩
  · exact ⟨.ridx, rfl, fun _ _ => rfl⟩
  · exact ⟨.ecmd, rfl, fun _ _ => rfl⟩
  · exact ⟨.eidx, rfl, fun _ _ => rfl⟩

theorem State.effect_readOnly (s : State) (h : off ∈ [0x000, 0x004, 0x01C, 0x020, 0x024]) (v : Word) :
    s.effect (.write off v) = s := by
  obtain ⟨r, hreg, hkept⟩ := regAt_readOnly s.cfg h
  rw [State.effect_write hreg, hkept]

/-- The ten registers below ACC. -/
theorem regAt_low (c : Config)
    (h : off ∈ [0x000, 0x004, 0x008, 0x00C, 0x010, 0x014, 0x018, 0x01C, 0x020, 0x024]) :
    ∃ r, regAt c off = some r := by
  refine Option.ne_none_iff_exists'.mp (mt regAt_eq_none_iff.mp ?_)
  simp only [List.mem_cons, List.not_mem_nil, or_false] at h
  omega

end Sys2Proof.Machine
end

section
/-! What the host reads and writes (20_memory.md R42 to R49, R57 to R59). -/

namespace Sys2Proof.Machine

/-- Settles O44: the step of an idle unit at a host's turn. -/
theorem idleUnitPerformsTransaction : Obligations.IdleUnitPerformsTransaction :=
  fun _ _ _ ha hh hi => step_host_of_idle ha hh hi

/-- Settles O48: a read has no effect, and no write reaches a read-only register. -/
theorem accessTypes : Obligations.AccessTypes := by
  intro s v
  refine ⟨fun off => rfl, fun off h => ⟨?_, s.effect_readOnly h v⟩, State.respond_read (r := .cmd) rfl⟩
  obtain ⟨r, hreg, _⟩ := regAt_readOnly s.cfg h
  exact State.respond_write hreg v

/-- Settles O45, by the register at each offset. -/
theorem hostReadValues : Obligations.HostReadValues := by
  intro s
  refine ⟨State.respond_read (r := .id) rfl, State.respond_read (r := .cap) rfl,
    State.respond_read (r := .ctrl) rfl, State.respond_read (r := .status) rfl,
    State.respond_read (r := .cmd) rfl, State.respond_read (r := .pos) rfl,
    State.respond_read (r := .mlen) rfl, ?ridx, State.respond_read (r := .ecmd) rfl,
    State.respond_read (r := .eidx) rfl, ?accNil, ?accPresent, ?msg, ?unmapped⟩
  case ridx =>
    rw [BitVec.ofNat_toNat]
    exact State.respond_read (r := .ridx) rfl
  case accNil =>
    intro j hj hnil
    rw [State.respond_read (regAt_acc _ hj), State.readReg, State.accWord, hnil]
  case accPresent =>
    intro j h hj hacc
    rw [State.respond_read (regAt_acc _ hj), State.readReg, State.accWord, hacc]
  case msg =>
    intro k hk
    rw [State.respond_read (regAt_msgWord hk), State.readReg, State.msgWord, ← toNat_bytes,
      BitVec.ofNat_toNat, BitVec.setWidth_eq]
  case unmapped =>
    intro off h
    exact State.respond_read_err_iff.mpr (regAt_unmapped h)

/-- The bytes that a write of message word `k` leaves, byte by byte (20_memory.md R49). -/
theorem State.writeMsgWord_msgByte_cases (s : State) (k : Nat) (v : Word) (a : Nat) :
    (s.writeMsgWord k v).msgByte a =
      if a = 4 * k then v.extractLsb' 24 8
      else if a = 4 * k + 1 then v.extractLsb' 16 8
      else if a = 4 * k + 2 then v.extractLsb' 8 8
      else if a = 4 * k + 3 then v.extractLsb' 0 8
      else s.msgByte a := by
  have inWord (r : Nat) (hr : r < 4) : (s.writeMsgWord k v).msgByte (4 * k + r) = wordByte v r := by
    rw [State.writeMsgWord_msgByte, if_pos (by omega), show (4 * k + r) % 4 = r by omega]
  split_ifs with h0 h1 h2 h3
  · exact h0 ▸ inWord 0 (by omega)
  · exact h1 ▸ inWord 1 (by omega)
  · exact h2 ▸ inWord 2 (by omega)
  · exact h3 ▸ inWord 3 (by omega)
  · rw [State.writeMsgWord_msgByte, if_neg (by omega)]

/-- Settles O46, by the register at each offset. -/
theorem hostWriteEffects : Obligations.HostWriteEffects := by
  intro s v
  refine ⟨fun off h => s.effect_readOnly h v, State.effect_write (r := .ctrl) rfl v, ?status,
    State.effect_write (r := .cmd) rfl v, State.effect_write (r := .pos) rfl v,
    State.effect_write (r := .mlen) rfl v, fun j hj => State.effect_write (regAt_acc _ hj) v, ?msg, ?low,
    fun j hj => State.respond_write (regAt_acc _ hj) v, fun k hk => State.respond_write (regAt_msgWord hk) v,
    ?unmapped⟩
  case status =>
    rw [State.effect_write (r := .status) rfl, State.writeReg, State.writeStatus_eq]
  case msg =>
    intro k hk
    rw [State.effect_write (regAt_msgWord hk)]
    exact ⟨s.writeMsgWord_msgByte_cases k v, rfl⟩
  case low =>
    intro off h
    obtain ⟨r, hreg⟩ := regAt_low s.cfg h
    exact State.respond_write hreg v
  case unmapped =>
    intro off h
    have hnone := regAt_unmapped h
    exact ⟨State.respond_write_err_iff.mpr hnone, State.effect_unmapped hnone v⟩

/-- Settles O47: MSGBYTES is a multiple of 4, so the words of the buffer end where the buffer ends. -/
theorem unmappedOffsetsAnswerErr : Obligations.UnmappedOffsetsAnswerErr := by
  intro s off v hwf
  have hmul : s.cfg.msgBytes % 4 = 0 := by
    obtain ⟨_, _, hmul, _⟩ := of_decide_eq_true hwf
    exact hmul
  rw [State.respond_read_err_iff, State.respond_write_err_iff]
  refine ⟨?_, Iff.rfl, fun hnone => State.effect_unmapped hnone v⟩
  rw [regAt_eq_none_iff]
  omega

/-- Settles O50: a write of a word changes no other word of the same register file. -/
theorem writtenWordsReadBack : Obligations.WrittenWordsReadBack := by
  intro s v
  refine ⟨fun j hj => ?acc, fun k hk => ?msg⟩
  case acc =>
    have hread (i : Nat) (hi : i < 8) :
        (s.effect (.write (0x040 + 4 * j) v)).respond (.read (0x040 + 4 * i)) =
          .value (if i = j then v else s.accWord i) := by
      rw [State.respond_read (regAt_acc _ hi), State.effect_write (regAt_acc _ hj)]
      exact congrArg _ (s.writeAccWord_accWord hj v i)
    refine ⟨by rw [hread j hj, if_pos rfl], fun i hi hne => ?_⟩
    rw [hread i hi, if_neg hne, State.respond_read (regAt_acc _ hi), State.readReg]
  case msg =>
    have hread (i : Nat) (hi : i < s.cfg.msgBytes / 4) :
        (s.effect (.write (0x100 + 4 * k) v)).respond (.read (0x100 + 4 * i)) =
          .value (if i = k then v else s.msgWord i) := by
      rw [State.effect_write (regAt_msgWord hk)]
      exact (State.respond_read (s := s.writeMsgWord k v) (regAt_msgWord hi)).trans
        (congrArg _ (s.writeMsgWord_msgWord k v i))
    refine ⟨by rw [hread k hk, if_pos rfl], fun i hi hne => ?_⟩
    rw [hread i hi, if_neg hne, State.respond_read (regAt_msgWord hi), State.readReg]

/-! ### Loading ACC word by word (20_memory.md R46) -/

/-- `x` after `setword` of the words of `h` with the listed numbers, in the order of the list. -/
def copyWords (h : Bytes32) (order : List Nat) (x : Bytes32) : Bytes32 :=
  order.foldl (fun x j => setHashWord x j (hashWord h j)) x

theorem copyWords_byte (h : Bytes32) {order : List Nat} (hlt : ∀ j ∈ order, j < 8) (x : Bytes32) (i : Nat) :
    (copyWords h order x).byte i = if i / 4 ∈ order then h.byte i else x.byte i := by
  induction order generalizing x with
  | nil => simp [copyWords]
  | cons j order ih =>
    have hword : (setHashWord x j (hashWord h j)).byte i = if i / 4 = j then h.byte i else x.byte i := by
      rw [setHashWord_byte _ _ _ _ (hlt j List.mem_cons_self)]
      split
      next hi => rw [wordByte_hashWord h j (by omega), show 4 * j + i % 4 = i by omega]
      next => rfl
    calc (copyWords h (j :: order) x).byte i
        = if i / 4 ∈ order then h.byte i else (setHashWord x j (hashWord h j)).byte i :=
          ih (fun k hk => hlt k (List.mem_cons_of_mem _ hk)) _
      _ = if i / 4 ∈ j :: order then h.byte i else x.byte i := by
          rw [hword]
          by_cases hj : i / 4 = j <;> by_cases ho : i / 4 ∈ order <;> simp [hj, ho]

/-- The host's writes of the listed ACC words are `copyWords` on ACC, once ACC is present. -/
theorem foldl_effect_acc (s : State) (h : Bytes32) {order : List Nat} (hlt : ∀ j ∈ order, j < 8) (x : Bytes32) :
    order.foldl (fun y j => y.effect (.write (0x040 + 4 * j) (hashWord h j))) (s.setAcc (some x)) =
      s.setAcc (some (copyWords h order x)) := by
  induction order generalizing x with
  | nil => rfl
  | cons j order ih =>
    rw [List.foldl_cons, State.effect_write (regAt_acc _ (hlt j List.mem_cons_self))]
    exact ih (fun k hk => hlt k (List.mem_cons_of_mem _ hk)) _

/-- Settles O49: the first write makes ACC present, and the eight words together are all 32 bytes. -/
theorem eightWordWritesLoadAccumulator : Obligations.EightWordWritesLoadAccumulator := by
  intro s h order hperm
  have hmem (j : Nat) : j ∈ order ↔ j < 8 := by rw [hperm.mem_iff, List.mem_range]
  have hlt : ∀ j ∈ order, j < 8 := fun j => (hmem j).mp
  have hall (x : Bytes32) : copyWords h order x = h :=
    Bytes32.ext_byte fun i hi => by rw [copyWords_byte h hlt, if_pos ((hmem _).mpr (by omega))]
  cases order with
  | nil => exact absurd hperm.length_eq (by simp)
  | cons j rest =>
    rw [List.foldl_cons, State.effect_write (regAt_acc _ (hlt j List.mem_cons_self))]
    calc rest.foldl _ (s.setAcc (some (setHashWord (s.acc.getD Bytes32.zero) j (hashWord h j))))
        = s.setAcc (some (copyWords h (j :: rest) (s.acc.getD Bytes32.zero))) :=
          foldl_effect_acc s h (fun k hk => hlt k (List.mem_cons_of_mem _ hk)) _
      _ = s.setAcc (some h) := by rw [hall]

end Sys2Proof.Machine
end

section
/-! Issue, hold and completion (20_memory.md R53, R54, R58; 60_exceptions.md R171), and what a step leaves unchanged
(20_memory.md R47, R49). -/

namespace Sys2Proof.Machine

/-! ### Issue and completion -/

/-- The decoder reads a well-formed command back from its word (30_encoding.md R71 to R74). -/
theorem decode_encode {i : Instr} (h : i.wf = true) : decode (encode i) = .ok i := by
  obtain ⟨hopc, ha, hb⟩ := Laws.EncodeFields.all i h
  rw [decode, hopc, ha, hb]
  cases i <;> rfl

/-- A command in flight completes by its execution, while ERR = 0 (60_exceptions.md R171). -/
theorem State.complete_command {s : State} {w : Word} {i : Instr} (hw : s.inflight = some w)
    (herr : s.err = false) (hdecode : decode w = .ok i) :
    s.complete = retire (exec i (s.setInflight none)) := by
  simp only [State.complete, hw, herr, execWord, hdecode, Bool.false_eq_true, if_false]

/-- So does the unit's turn. -/
theorem step_unit_command {s : State} {w : Word} {i : Instr} {l : List Turn} (ha : s.agenda = .unit :: l)
    (hw : s.inflight = some w) (herr : s.err = false) (hdecode : decode w = .ok i) :
    step s = retire (exec i ((s.setAgenda l).setInflight none)) :=
  (step_unit ha).trans (State.complete_command hw herr hdecode)

theorem run_one (s : State) : (Sys2Proof.core.run 1 s : Host.Outcome State Fault Refusal) = step s := by
  have hcore : Sys2Proof.core.step s = step s := rfl
  simp only [Host.Core.run, hcore]
  cases step s <;> rfl

/-- A write of CMD to an idle unit issues its word (20_memory.md R58). -/
theorem step_issue {s : State} {w : Word} {l : List Turn} (ha : s.agenda = .host (.write 0x010 w) :: l)
    (hh : s.held = none) (hi : s.inflight = none) :
    step s = .next (((s.issue w).setAgenda l).record (.write 0x010 w) .ok) :=
  step_host_of_idle ha hh hi

/-- Settles O35: the first step issues the command, the second completes it. -/
theorem issuedCommandExecutes : Obligations.IssuedCommandExecutes := by
  intro s i l hwf ha hh hi herr
  refine (run_succ 1 (step_issue ha hh hi)).trans ((run_one _).trans ?_)
  refine Eq.trans (step_unit_command rfl rfl herr (decode_encode hwf)) ?_
  rw [← hi]
  rfl

/-! ### What a step answers -/

/-- Everything a step can answer: a reset, what the unit's `Complete` step leaves, a performed transaction, or a move
in the record of the host's side alone. -/
theorem step_outcomes {s t : State} (h : step s = .next t) :
    (∃ l, t = (s.setAgenda l).hardReset) ∨
    (∃ l, (s.setAgenda l).complete = .next t) ∨
    (∃ x l y, t = { s.effect x with agenda := l, held := y, log := (x, s.respond x) :: s.log }) ∨
    (∃ l y, t = (s.setAgenda l).setHeld y) := by
  have hproceed (hp : s.proceed = .next t) :
      (∃ l, (s.setAgenda l).complete = .next t) ∨
      (∃ x l y, t = { s.effect x with agenda := l, held := y, log := (x, s.respond x) :: s.log }) ∨
      (∃ l y, t = (s.setAgenda l).setHeld y) := by
    rcases s.proceed_cases with ⟨_, hcomplete⟩ | ⟨x, _, _, hperform⟩ | ⟨_, _, hidle⟩
    · exact .inl ⟨s.agenda, hcomplete.symm.trans hp⟩
    · cases hperform.symm.trans hp
      exact .inr (.inl ⟨x, _, _, s.perform_eq x s.agenda none⟩)
    · cases hidle.symm.trans hp
      exact .inr (.inr ⟨s.agenda, s.held, rfl⟩)
  rcases step_cases s with
    ⟨_, hp⟩ | ⟨l, _, hreset⟩ | ⟨l, _, hunit⟩ | ⟨_, _, _, _, _, hp⟩ | ⟨x, l, _, _, hpresent⟩
  · exact .inr (hproceed (hp.symm.trans h))
  · cases hreset.symm.trans h
    exact .inl ⟨l, rfl⟩
  · exact .inr (.inl ⟨l, hunit.symm.trans h⟩)
  · exact .inr (hproceed (hp.symm.trans h))
  · cases hpresent.symm.trans h
    rcases (s.setAgenda l).present_cases x with ⟨_, hperformed⟩ | ⟨_, _, hheld⟩
    · exact .inr (.inr (.inl ⟨x, _, _, hperformed.trans (s.perform_eq x l s.held)⟩))
    · exact .inr (.inr (.inr ⟨l, _, hheld⟩))

/-- Where no command completes, `Complete` changes nothing. -/
theorem State.complete_eq_self {s t : State} (h : s.complete = .next t)
    (hno : s.inflight = none ∨ t.inflight ≠ none) : t = s := by
  cases hi : s.inflight with
  | none =>
    have hidle : s.complete = .next s := by simp only [State.complete, hi]
    cases hidle.symm.trans h
    rfl
  | some w =>
    obtain ⟨hdone, _⟩ := State.complete_done hi h
    simp [hi, hdone] at hno

/-- Settles O52, by the answers of a step. -/
theorem onlyCompletionsWriteSlots : Obligations.OnlyCompletionsWriteSlots := by
  intro s t h hresets hno
  rcases step_outcomes h with ⟨l, rfl⟩ | ⟨l, hcomplete⟩ | ⟨x, l, y, rfl⟩ | ⟨l, y, rfl⟩
  · simp at hresets
  · rw [State.complete_eq_self hcomplete hno]
    simp
  · obtain ⟨_, hslots, hcmpr, hecmd, heidx, hridx, _⟩ := s.effect_frame x
    exact ⟨fun k => congrArg (Memory.read · k) hslots, hcmpr, hridx, hecmd, heidx⟩
  · simp

/-! ### The message buffer -/

/-- `Exec(w)` leaves what is the host's: the message bytes, and the record of the host's side. -/
theorem execWord_host {w : Word} {s t : State} (h : execWord w s = .next t) :
    (∀ a, t.msgByte a = s.msgByte a) ∧ t.agenda = s.agenda ∧ t.held = s.held := by
  rcases execWord_cases w s with ⟨c, hillegal⟩ | ⟨i, _, hexec⟩
  · cases hillegal.symm.trans h
    exact ⟨fun _ => rfl, rfl, rfl⟩
  · obtain ⟨_, _, _, _, hmsg, _, _, _, _, _, hagenda, hheld, _⟩ :=
      commandsLeaveHostRegisters i s t (hexec.symm.trans h)
    exact ⟨hmsg, hagenda, hheld⟩

/-- So does `Complete`. -/
theorem State.complete_host {s t : State} (h : s.complete = .next t) :
    (∀ a, t.msgByte a = s.msgByte a) ∧ t.agenda = s.agenda ∧ t.held = s.held := by
  rcases s.complete_cases with ⟨_, hidle⟩ | ⟨w, _, _, hdropped⟩ | ⟨w, u, _, _, hword, hdone⟩
  · cases hidle.symm.trans h
    exact ⟨fun _ => rfl, rfl, rfl⟩
  · cases hdropped.symm.trans h
    exact ⟨fun _ => rfl, rfl, rfl⟩
  · cases hdone.symm.trans h
    obtain ⟨hmsg, hagenda, hheld⟩ := execWord_host hword
    exact ⟨hmsg, hagenda, hheld⟩

/-- No write but that of its own word changes a message byte (20_memory.md R49). -/
theorem State.writeReg_msgByte {s : State} {r : HostReg} {a : Nat} (hr : r ≠ .msg (a / 4)) (v : Word) :
    (s.writeReg v r).msgByte a = s.msgByte a := by
  cases r with
  | msg k =>
    have hk : a / 4 ≠ k := fun e => hr (e ▸ rfl)
    rw [State.writeReg, State.writeMsgWord_msgByte, if_neg hk]
  | status =>
    rw [State.writeReg, State.writeStatus_eq]
    rfl
  | _ => rfl

theorem State.effect_msgByte {s : State} {x : HostTxn} {a : Nat}
    (hx : ∀ v, x ≠ .write (0x100 + 4 * (a / 4)) v) : (s.effect x).msgByte a = s.msgByte a := by
  rcases s.effect_cases x with hnothing | ⟨off, v, r, hwrite, hreg, heffect⟩
  · rw [hnothing]
  · rw [heffect]
    refine State.writeReg_msgByte (fun hr => hx v ?_) v
    rw [hwrite, regAt_msg_offset (hreg.trans (congrArg some hr))]

/-- Settles O53, by the answers of a step. -/
theorem messageBytesAreStable : Obligations.MessageBytesAreStable := by
  intro s t a h hresets hlog
  rcases step_outcomes h with ⟨l, rfl⟩ | ⟨l, hcomplete⟩ | ⟨x, l, y, rfl⟩ | ⟨l, y, rfl⟩
  · simp at hresets
  · obtain ⟨hmsg, _⟩ := State.complete_host hcomplete
    exact hmsg a
  · exact State.effect_msgByte fun v hx => hlog v (s.respond x) (hx ▸ rfl)
  · rfl

/-! ### The hold (20_memory.md R53) -/

/-- BUSY and DONE are the two low bits of STATUS (10_state.md R21). -/
theorem State.statusWord_low (s : State) :
    s.statusWord.getLsbD 0 = s.busy ∧ s.statusWord.getLsbD 1 = s.done := by
  simp only [State.statusWord, BitVec.getLsbD_ofNat, Nat.testBit_eq_decide_div_mod_eq]
  cases s.busy <;> cases s.done <;> simp <;> omega

/-- With a transaction waiting and no turn of the unit or reset next, the machine goes on by itself (log 7). -/
theorem step_waiting {s : State} {x : HostTxn} (hh : s.held = some x)
    (ha : s.agenda = [] ∨ ∃ y l, s.agenda = .host y :: l) : step s = s.proceed := by
  rcases ha with ha | ⟨y, l, ha⟩ <;> simp only [step, State.turn, ha, hh]

/-- A host turn with nothing held presents its transaction. -/
theorem step_present {s : State} {x : HostTxn} {l : List Turn} (ha : s.agenda = .host x :: l)
    (hh : s.held = none) : step s = .next ((s.setAgenda l).present x) := by
  simp only [step, State.turn, ha, hh]

/-- A held transaction is performed once no command is in flight. -/
theorem State.proceed_held {s : State} {x : HostTxn} (hi : s.inflight = none) (hh : s.held = some x) :
    s.proceed = .next { s.effect x with held := none, log := (x, s.respond x) :: s.log } := by
  have hagenda : (s.effect x).agenda = s.agenda := by
    obtain ⟨_, _, _, _, _, _, _, hagenda, _⟩ := s.effect_frame x
    exact hagenda
  have hidle : ¬ s.busy = true := by simp [State.busy, hi]
  have hperform : (s.setHeld none).perform x =
      { s.effect x with agenda := s.agenda, held := none, log := (x, s.respond x) :: s.log } :=
    s.perform_eq x s.agenda none
  rw [← hagenda] at hperform
  rw [State.proceed, if_neg hidle, hh]
  exact congrArg Host.Outcome.next hperform

/-- Settles O51: what `present` does while BUSY = 1, then `Complete`, then the performing of what is held. -/
theorem holdWhileBusy : Obligations.HoldWhileBusy := by
  intro s l hinv hi
  have hbusy : s.busy = true := Option.isSome_iff_ne_none.mpr hi
  obtain ⟨hbit0, hbit1⟩ := s.statusWord_low
  refine ⟨fun hh ha => ⟨?statusRead, hbit0.trans hbusy, hbit1.trans (hinv.busy_not_done hbusy)⟩,
    fun x hx hh ha => ?hold, fun x hh ha => ?release⟩
  case statusRead =>
    rcases (s.setAgenda l).present_cases statusRead with ⟨_, hperformed⟩ | ⟨_, hne, _⟩
    · rw [step_present ha hh, hperformed]
      rfl
    · exact absurd rfl hne
  case hold =>
    rcases (s.setAgenda l).present_cases x with ⟨hidle | hstatus, _⟩ | ⟨_, _, hheld⟩
    · exact absurd (hbusy.symm.trans hidle) (by decide)
    · exact absurd hstatus hx
    · rw [step_present ha hh, hheld]
      rfl
  case release =>
    have hwaits (u : State) (hu : u.agenda = s.agenda) :
        u.agenda = [] ∨ ∃ y l, u.agenda = .host y :: l := by
      rw [hu]
      exact ha.imp_right fun ⟨y, hy⟩ => ⟨y, l, hy⟩
    have hcompletes : step s = s.complete := by
      rw [step_waiting hh (hwaits s rfl), State.proceed, if_pos hbusy]
    refine ⟨hcompletes, fun s1 h1 => ?_⟩
    rw [hcompletes] at h1
    obtain ⟨w, hw⟩ := Option.ne_none_iff_exists'.mp hi
    obtain ⟨hfree, _⟩ := State.complete_done hw h1
    obtain ⟨_, hagenda, hheld⟩ := State.complete_host h1
    have hheld1 := hheld.trans hh
    exact ⟨hheld1, hagenda, (step_waiting hheld1 (hwaits s1 hagenda)).trans (State.proceed_held hfree hheld1)⟩

end Sys2Proof.Machine
end

section
/-! The decoder against the encoder and against the opcode map (30_encoding.md R71 to R77), and the completion of a word
that is no command. -/

namespace Sys2Proof.Machine

/-! ### Which words decode -/

/-- A word decodes to the command whose opcode and two operands are its fields: an operand that the command has not is
a field that must be 0 (R73, R74). -/
theorem decode_eq_ok_iff {w : Word} {i : Instr} :
    decode w = .ok i ↔ opcField w = i.opcode ∧ aField w = i.fieldA ∧ bField w = i.fieldB := by
  constructor
  · intro h
    unfold decode at h
    split at h
    case h_1 hopc | h_5 hopc | h_11 hopc =>
      obtain ⟨⟨ha, hb⟩, rfl⟩ := formNone_ok.mp h
      exact ⟨hopc, ha, hb⟩
    case h_2 hopc | h_3 hopc | h_6 hopc | h_7 hopc | h_10 hopc =>
      obtain ⟨hb, rfl⟩ := formSlot_ok.mp h
      exact ⟨hopc, rfl, hb⟩
    case h_4 hopc | h_8 hopc | h_9 hopc =>
      cases h
      exact ⟨hopc, rfl, rfl⟩
    case h_12 => cases h
  · rintro ⟨hopc, ha, hb⟩
    rw [decode, hopc, ha, hb]
    cases i <;> rfl

/-- The fields of a word are operands that fit (R72). -/
theorem wf_of_decode {w : Word} {i : Instr} (h : decode w = .ok i) : i.wf = true := by
  obtain ⟨_, ha, hb⟩ := decode_eq_ok_iff.mp h
  have hA : i.fieldA < 2 ^ 14 := ha ▸ aField_lt w
  have hB : i.fieldB < 2 ^ 14 := hb ▸ bField_lt w
  cases i <;> simp_all [Instr.wf, fitsField, Instr.fieldA, Instr.fieldB]

/-- Every word that decodes is a packed word, of its own fields (R71). -/
theorem encode_of_decode {w : Word} {i : Instr} (h : decode w = .ok i) : encode i = w := by
  obtain ⟨hopc, ha, hb⟩ := decode_eq_ok_iff.mp h
  rw [encode, ← hopc, ← ha, ← hb, packWord_fields]

/-- The decoder and the encoder are inverse to each other on the well-formed commands. -/
theorem decode_eq_ok_iff_encode {w : Word} {i : Instr} : decode w = .ok i ↔ i.wf = true ∧ encode i = w :=
  ⟨fun h => ⟨wf_of_decode h, encode_of_decode h⟩, fun ⟨hwf, hw⟩ => hw ▸ decode_encode hwf⟩

theorem formNone_ne_reservedOpcode {a b : Nat} {i : Instr} : formNone a b i ≠ .error .reservedOpcode := by
  unfold formNone
  split <;> simp

theorem formSlot_ne_reservedOpcode {b : Nat} {i : Instr} : formSlot b i ≠ .error .reservedOpcode := by
  unfold formSlot
  split <;> simp

/-- The reserved opcodes are those from 0xB up (R75). -/
theorem decode_eq_reservedOpcode_iff {w : Word} : decode w = .error .reservedOpcode ↔ 11 ≤ opcField w := by
  unfold decode
  split
  case h_12 =>
    simp only [true_iff, imp_false] at *
    omega
  all_goals simp [*, formNone_ne_reservedOpcode, formSlot_ne_reservedOpcode]

/-- Settles O1: the fields of the word of a command are its opcode and operands. -/
theorem decodeOfEncode : Obligations.DecodeOfEncode := fun _ => decode_encode

/-- Settles O2: a word is packed from its fields, and those are the fields of the command it decodes to. -/
theorem encodeOfDecode : Obligations.EncodeOfDecode := fun _ _ => decode_eq_ok_iff_encode.mp

/-- Settles O4: each field of a well-formed command fits, so packing is exact; and every word is packed from its
fields. -/
theorem commandWordIsSumOfFields : Obligations.CommandWordIsSumOfFields := by
  constructor
  · intro i hwf
    obtain ⟨hopc, ha, hb⟩ := Instr.wf_fields hwf
    exact packWord_toNat hopc ha hb
  · intro w
    have hopc := opcField_lt w
    have ha := aField_lt w
    have hb := bField_lt w
    have hsum := packWord_toNat hopc ha hb
    rw [packWord_fields] at hsum
    exact ⟨hsum, hopc, Nat.le_of_lt_succ ha, Nat.le_of_lt_succ hb⟩

/-- Settles O6: each command has the word that the table gives it; the last three words are none of a command. -/
theorem specWordsDecode : Obligations.SpecWordsDecode := by
  have decodes {w : Word} (i : Instr) (hwf : i.wf = true) (hw : encode i = w) : decode w = .ok i :=
    decode_eq_ok_iff_encode.mpr ⟨hwf, hw⟩
  exact ⟨decodes .nop rfl rfl, decodes (.lda 16383) rfl rfl, decodes (.sta 16) rfl rfl, decodes (.clrs 0 8) rfl rfl,
    decodes .clra rfl rfl, decodes (.hbr 7) rfl rfl, decodes (.hbl 2) rfl rfl, decodes (.fold 16 2) rfl rfl,
    decodes (.build 32 5) rfl rfl, decodes (.cmp 46) rfl rfl, decodes .dhash rfl rfl,
    decode_eq_reservedOpcode_iff.mpr (by decide), rfl, rfl⟩

/-! ### Match and mask -/

theorem packWord_inj {opc a b opc' a' b' : Nat} (ho : opc < 16) (ha : a < 2 ^ 14) (hb : b < 2 ^ 14) (ho' : opc' < 16)
    (ha' : a' < 2 ^ 14) (hb' : b' < 2 ^ 14) :
    packWord opc a b = packWord opc' a' b' ↔ opc = opc' ∧ a = a' ∧ b = b' := by
  rw [← BitVec.toNat_inj, packWord_toNat ho ha hb, packWord_toNat ho' ha' hb']
  omega

theorem and_eq_packWord (w m : Word) :
    w &&& m = packWord (opcField w &&& opcField m) (aField w &&& aField m) (bField w &&& bField m) := by
  rw [← packWord_fields (w &&& m)]
  simp only [opcField, aField, bField, BitVec.extractLsb'_and, BitVec.toNat_and]

/-- Masking with all the bits of a `k`-bit field keeps the field. -/
theorem and_ones {x k : Nat} (h : x < 2 ^ k) : x &&& (2 ^ k - 1) = x := by
  rw [Nat.and_two_pow_sub_one_eq_mod, Nat.mod_eq_of_lt h]

/-- The mask of CLRS, FOLD and BUILD keeps OPC alone. -/
theorem and_opcMask (w : Word) : w &&& 0xF0000000#32 = packWord (opcField w) 0 0 := by
  have hopc : opcField w &&& opcField 0xF0000000#32 = opcField w := and_ones (k := 4) (opcField_lt w)
  have ha : aField 0xF0000000#32 = 0 := rfl
  have hb : bField 0xF0000000#32 = 0 := rfl
  rw [and_eq_packWord, hopc, ha, hb, Nat.and_zero, Nat.and_zero]

/-- The mask of LDA, STA, HBR, HBL and CMP keeps OPC and B. -/
theorem and_opcBMask (w : Word) : w &&& 0xF0003FFF#32 = packWord (opcField w) 0 (bField w) := by
  have hopc : opcField w &&& opcField 0xF0003FFF#32 = opcField w := and_ones (k := 4) (opcField_lt w)
  have ha : aField 0xF0003FFF#32 = 0 := rfl
  have hb : bField w &&& bField 0xF0003FFF#32 = bField w := and_ones (k := 14) (bField_lt w)
  rw [and_eq_packWord, hopc, ha, hb, Nat.and_zero]

/-- The rows of the opcode map with no free field. -/
theorem decode_eq_ok_iff_word {w : Word} {i : Instr} (hwf : i.wf = true) :
    decode w = .ok i ↔ w &&& 0xFFFFFFFF#32 = encode i := by
  have hmask : w &&& 0xFFFFFFFF#32 = w := BitVec.and_allOnes
  rw [hmask, decode_eq_ok_iff_encode, eq_comm (a := w)]
  exact and_iff_right hwf

/-- The rows of the opcode map in which A is free. -/
theorem decode_eq_ok_iff_slot {w : Word} {i : Instr} {opc : Nat} (hopc : i.opcode = opc) (ho : opc < 16)
    (hb : i.fieldB = 0) :
    decode w = .ok i ↔ w &&& 0xF0003FFF#32 = packWord opc 0 0 ∧ i.fieldA = (w.extractLsb' 14 14).toNat := by
  rw [decode_eq_ok_iff, hopc, hb, and_opcBMask,
    packWord_inj (opcField_lt w) (by decide) (bField_lt w) ho (by decide) (by decide),
    eq_comm (a := i.fieldA), ← aField]
  tauto

/-- The rows of the opcode map in which A and B are free. -/
theorem decode_eq_ok_iff_range {w : Word} {i : Instr} {opc : Nat} (hopc : i.opcode = opc) (ho : opc < 16) :
    decode w = .ok i ↔ w &&& 0xF0000000#32 = packWord opc 0 0 ∧
      i.fieldA = (w.extractLsb' 14 14).toNat ∧ i.fieldB = (w.extractLsb' 0 14).toNat := by
  rw [decode_eq_ok_iff, hopc, and_opcMask,
    packWord_inj (opcField_lt w) (by decide) (by decide) ho (by decide) (by decide), eq_comm (a := i.fieldA),
    eq_comm (a := i.fieldB), ← aField, ← bField]
  tauto

/-- Settles O3: each row has one of three masks, by the fields that its command leaves free. -/
theorem opcodeMapMatchAndMask : Obligations.OpcodeMapMatchAndMask := fun _ _ _ =>
  ⟨decode_eq_ok_iff_word (i := .nop) rfl,
    decode_eq_ok_iff_slot (opc := 0x1) rfl (by decide) rfl,
    decode_eq_ok_iff_slot (opc := 0x2) rfl (by decide) rfl,
    decode_eq_ok_iff_range (opc := 0x3) rfl (by decide),
    decode_eq_ok_iff_word (i := .clra) rfl,
    decode_eq_ok_iff_slot (opc := 0x5) rfl (by decide) rfl,
    decode_eq_ok_iff_slot (opc := 0x6) rfl (by decide) rfl,
    decode_eq_ok_iff_range (opc := 0x7) rfl (by decide),
    decode_eq_ok_iff_range (opc := 0x8) rfl (by decide),
    decode_eq_ok_iff_slot (opc := 0x9) rfl (by decide) rfl,
    decode_eq_ok_iff_word (i := .dhash) rfl,
    decode_eq_reservedOpcode_iff⟩

/-! ### Words that are no command -/

/-- No command has a reserved opcode, and the fields that a command does not use are 0 (R71, R73). -/
theorem opcode_lt_and_unused_fields (i : Instr) :
    i.opcode < 11 ∧ (i.opcode ∈ [0, 4, 10] → i.fieldA = 0 ∧ i.fieldB = 0) ∧
      (i.opcode ∈ [1, 2, 5, 6, 9] → i.fieldB = 0) := by
  cases i <;> simp [Instr.opcode, Instr.fieldA, Instr.fieldB]

/-- A word with a reserved opcode, or with a field that must be 0 and is not, is the word of no command (R75, R76). -/
theorem decode_error_of_reserved {w : Word}
    (h : 11 ≤ w.toNat / 2 ^ 28 ∨
      (w.toNat / 2 ^ 28 ∈ [0, 4, 10] ∧ w.toNat % 2 ^ 28 ≠ 0) ∨
      (w.toNat / 2 ^ 28 ∈ [1, 2, 5, 6, 9] ∧ w.toNat % 2 ^ 14 ≠ 0)) : ∃ e, decode w = .error e := by
  cases hdecode : decode w with
  | error e => exact ⟨e, rfl⟩
  | ok i =>
    exfalso
    obtain ⟨hopc, ha, hb⟩ := decode_eq_ok_iff.mp hdecode
    obtain ⟨hdefined, hnone, hslot⟩ := opcode_lt_and_unused_fields i
    rw [opcField_eq] at hopc
    rw [aField_eq] at ha
    rw [bField_eq] at hb
    rw [hopc] at h
    rcases h with hreserved | ⟨hmem, hnonzero⟩ | ⟨hmem, hnonzero⟩
    · omega
    · obtain ⟨hA, hB⟩ := hnone hmem
      omega
    · exact hnonzero (hb.trans (hslot hmem))

/-- A word in flight that is no command completes with the record of E_ILLCMD, while ERR = 0 (60_exceptions.md R171,
R173). -/
theorem State.complete_illegal {s : State} {w : Word} {e : DecodeError} (hw : s.inflight = some w)
    (herr : s.err = false) (hdecode : decode w = .error e) :
    s.complete = .next (((s.setInflight none).takeFault .illCmd w).setDone true) := by
  simp only [State.complete, hw, herr, execWord, hdecode, Bool.false_eq_true, if_false, retire]

/-- Settles O5: such a word does not decode, and its completion records E_ILLCMD alone. -/
theorem reservedWordRaisesIllegalCommand : Obligations.ReservedWordRaisesIllegalCommand := by
  intro s w l ha hw herr hreserved
  obtain ⟨e, hdecode⟩ := decode_error_of_reserved hreserved
  exact (step_unit ha).trans (State.complete_illegal hw herr hdecode)

end Sys2Proof.Machine
end

section
/-! The hash functions (40_hash256.md R91 to R99): numbers as big-endian bytes, the padding of SHA-256, the words of its
result, and DHASH. -/

namespace Sys2Proof.Machine

/-! ### Big-endian bytes -/

@[simp] theorem bytesBE_length (k n : Nat) : (bytesBE k n).length = k := by
  induction k with
  | zero => rfl
  | succ k ih => rw [bytesBE, List.length_cons, ih]

/-- A last byte in a little-endian sequence is its most significant one. -/
theorem bytesLE_concat (bs : List Byte) (b : Byte) :
    bytesLE (bs ++ [b]) = bytesLE bs + 256 ^ bs.length * b.toNat := by
  induction bs with
  | nil => simp [bytesLE]
  | cons x xs ih =>
    rw [List.cons_append, bytesLE, ih, bytesLE, List.length_cons]
    ring

/-- `k` big-endian bytes hold a number modulo `256 ^ k`. -/
theorem bytesLE_reverse_bytesBE (k n : Nat) : bytesLE (bytesBE k n).reverse = n % 256 ^ k := by
  induction k with
  | zero => simp [bytesBE, bytesLE, Nat.mod_one]
  | succ k ih =>
    rw [bytesBE, List.reverse_cons, bytesLE_concat, ih, List.length_reverse, bytesBE_length, BitVec.toNat_ofNat,
      Nat.mod_pow_succ (b := 256)]

/-- The big-endian bytes of a word are those of its packing (R98, 20_memory.md R44). -/
theorem bytesBE_word (x : Word) :
    bytesBE 4 x.toNat = [wordByte x 0, wordByte x 1, wordByte x 2, wordByte x 3] := by
  have byte (r : Nat) : BitVec.ofNat 8 (x.toNat / 2 ^ (24 - 8 * r)) = wordByte x r :=
    BitVec.eq_of_toNat_eq ((BitVec.toNat_ofNat _ _).trans (toNat_wordByte x r).symm)
  rw [← byte 0, ← byte 1, ← byte 2, ← byte 3]
  rfl

/-! ### The padding -/

/-- The zero bytes fill the last block, and no fewer do (R95). -/
theorem padZeros_least (l : Nat) :
    padZeros l ≤ 63 ∧ (l + 1 + padZeros l + 8) % 64 = 0 ∧ ∀ y, y < padZeros l → (l + 1 + y + 8) % 64 ≠ 0 := by
  unfold padZeros
  exact ⟨by omega, by omega, fun y hy => by omega⟩

theorem shaPad_length (m : List Byte) : (shaPad m).length = 64 * shaBlocks m.length := by
  simp only [shaPad, List.length_append, List.length_cons, List.length_replicate, bytesBE_length, shaBlocks, padZeros]
  omega

/-- Settles O7: the padding is made of `padZeros` zero bytes, the least number that fills a block, and of the bit length
as eight big-endian bytes. -/
theorem shaPaddingFillsBlocks : Obligations.ShaPaddingFillsBlocks := by
  intro m
  obtain ⟨hbound, hfills, hleast⟩ := padZeros_least m.length
  exact ⟨padZeros m.length, bytesBE 8 (8 * m.length), rfl, bytesBE_length _ _, bytesLE_reverse_bytesBE _ _, hbound,
    hfills, hleast, shaPad_length m⟩

/-! ### The words of a result -/

/-- The chaining words in order, `H[0]` first (R97). -/
def Chain.words (v : Chain) : List Word :=
  [v.a, v.b, v.c, v.d, v.e, v.f, v.g, v.h]

theorem Chain.bytes_eq_flatMap (v : Chain) : v.bytes = v.words.flatMap fun x => bytesBE 4 x.toNat := by
  simp only [Chain.bytes, Chain.words, List.flatMap_cons, List.flatMap_nil, List.append_nil, List.append_assoc]

/-- Byte 4j + r of a sequence of big-endian words is byte `r` of word `j`; past the end both are 0. -/
theorem flatMap_bytesBE_getD (ws : List Word) (j : Nat) {r : Nat} (hr : r < 4) :
    (ws.flatMap fun x => bytesBE 4 x.toNat).getD (4 * j + r) 0#8 = wordByte (ws.getD j 0) r := by
  induction ws generalizing j with
  | nil => simp [wordByte]
  | cons x ws ih =>
    rw [List.flatMap_cons]
    cases j with
    | zero =>
      rw [List.getD_append _ _ _ _ (by simpa using hr), bytesBE_word]
      interval_cases r <;> rfl
    | succ j =>
      rw [List.getD_append_right _ _ _ _ (by rw [bytesBE_length]; omega), bytesBE_length,
        show 4 * (j + 1) + r - 4 = 4 * j + r by omega, ih j, List.getD_cons_succ]

/-- The words of a value that is stored as big-endian words are those words (20_memory.md R44). -/
theorem hashWord_of_flatMap {h : Bytes32} {ws : List Word} (hbytes : h.bytes = ws.flatMap fun x => bytesBE 4 x.toNat)
    (j : Nat) : hashWord h j = ws.getD j 0 := by
  have byte (r : Nat) (hr : r < 4) : h.byte (4 * j + r) = wordByte (ws.getD j 0) r := by
    rw [Bytes32.byte, hbytes, flatMap_bytesBE_getD ws j hr]
  have hfirst : h.byte (4 * j) = wordByte (ws.getD j 0) 0 := byte 0 (by omega)
  rw [hashWord, hfirst, byte 1 (by omega), byte 2 (by omega), byte 3 (by omega), wordByte_append]

theorem hashWord_sha256Standard (m : List Byte) (j : Nat) :
    hashWord (sha256Standard m) j = (shaChain shaInit (shaBlocks m.length) (shaPad m)).words.getD j 0 :=
  hashWord_of_flatMap (Chain.bytes_eq_flatMap _) j

/-- Settles O8: the result is the chaining words as big-endian bytes, so its words are the chaining words. -/
theorem shaResultWordsAreChainingWords : Obligations.ShaResultWordsAreChainingWords := by
  intro m
  have word := hashWord_sha256Standard m
  exact ⟨word 0, word 1, word 2, word 3, word 4, word 5, word 6, word 7⟩

/-- Settles O9: both are compositions of the parameter SHA256. -/
theorem doubleHashAndBranchHash : Obligations.DoubleHashAndBranchHash := by
  intro c m l r
  exact ⟨by rw [hash256], by rw [hashBranch, hash256]⟩

/-! ### DHASH -/

/-- A word that is no command raises E_ILLCMD (30_encoding.md R74). -/
theorem execWord_of_decode_error {w : Word} {e : DecodeError} (s : State) (h : decode w = .error e) :
    execWord w s = .next (s.faulted 1 w 0) := by
  rw [execWord, h]
  rfl

theorem exec_dhash (s : State) : exec .dhash s = execDhash s := rfl

/-- Everything DHASH can do (R99). -/
theorem execDhash_cases (s : State) :
    (s.cfg.msgBytes < s.mlen.toNat ∧ execDhash s = .next (s.takeFault .range (encode .dhash))) ∨
    (s.mlen.toNat ≤ s.cfg.msgBytes ∧
      execDhash s = .next (s.setAcc (some (hash256 s.cfg (s.message s.mlen.toNat))))) := by
  rw [execDhash]
  split
  next hrange => exact .inl ⟨hrange, rfl⟩
  next hfits => exact .inr ⟨Nat.le_of_not_lt hfits, rfl⟩

/-- Settles O10, by the two cases of DHASH; a word of its opcode with another field set is reserved. -/
theorem dhashHashesMessage : Obligations.DhashHashesMessage := by
  intro s
  refine ⟨rfl, fun w hopc hfields => ?reserved, ?effects⟩
  case reserved =>
    have hopcode : w.toNat / 2 ^ 28 ∈ [0, 4, 10] := by rw [hopc]; decide
    obtain ⟨e, hdecode⟩ := decode_error_of_reserved (.inr (.inl ⟨hopcode, hfields⟩))
    exact execWord_of_decode_error s hdecode
  case effects =>
    rw [exec_dhash]
    rcases execDhash_cases s with ⟨hrange, hfault⟩ | ⟨hfits, hhash⟩
    · exact ⟨fun _ => hfault, fun hle => absurd hrange (Nat.not_lt_of_le hle)⟩
    · exact ⟨fun hlt => absurd hlt (Nat.not_lt_of_le hfits), fun _ => hhash⟩

end Sys2Proof.Machine
end

section
/-! The moves and CMP (41_hashid_moves_compare.md R110 to R115): their words, their faults and their effects. -/

namespace Sys2Proof.Machine

/-! ### Words with a reserved field set -/

theorem execWord_reserved_of_none {w : Word} {opc : Nat} (s : State) (hmem : opc ∈ [0, 4, 10])
    (hopc : w.toNat / 2 ^ 28 = opc) (hfields : w.toNat % 2 ^ 28 ≠ 0) : execWord w s = .next (s.faulted 1 w 0) := by
  obtain ⟨e, hdecode⟩ := decode_error_of_reserved (.inr (.inl ⟨hopc ▸ hmem, hfields⟩))
  exact execWord_of_decode_error s hdecode

theorem execWord_reserved_of_slot {w : Word} {opc : Nat} (s : State) (hmem : opc ∈ [1, 2, 5, 6, 9])
    (hopc : w.toNat / 2 ^ 28 = opc) (hfield : w.toNat % 2 ^ 14 ≠ 0) : execWord w s = .next (s.faulted 1 w 0) := by
  obtain ⟨e, hdecode⟩ := decode_error_of_reserved (.inr (.inr ⟨hopc ▸ hmem, hfield⟩))
  exact execWord_of_decode_error s hdecode

/-- The word of a command with the A operand alone (30_encoding.md R71). -/
theorem packWord_slot_toNat {opc a : Nat} (ho : opc < 16) (ha : a < 2 ^ 14) :
    (packWord opc a 0).toNat = opc * 2 ^ 28 + a * 2 ^ 14 := by
  rw [packWord_toNat ho ha (by decide), Nat.add_zero]

/-! ### The meanings -/

section
variable (s : State) (a n : Nat)

theorem exec_lda : exec (.lda a) s =
    if s.cfg.nslots ≤ a then .next (s.faulted 2 (encode (.lda a)) 0) else .next (s.setAcc (s.slot a)) := rfl

theorem exec_sta : exec (.sta a) s =
    if s.cfg.nslots ≤ a then .next (s.faulted 2 (encode (.sta a)) 0)
    else .next (s.setSlots (Memory.put a s.acc s.slots)) := rfl

theorem exec_clrs : exec (.clrs a n) s =
    if s.cfg.nslots < a + n then .next (s.faulted 2 (encode (.clrs a n)) 0)
    else .next (s.setSlots (Memory.clear a n s.slots)) := rfl

theorem exec_cmp : exec (.cmp a) s =
    if s.cfg.nslots ≤ a then .next (s.faulted 2 (encode (.cmp a)) 0)
    else .next (s.setCmpr (cmprBits (compareHash s.acc (s.slot a)))) := rfl

end

/-- Storing nil in a memory clears one index (R112). -/
theorem Memory.put_none {β : Type} (a : Nat) (m : Memory β) : Memory.put a none m = Memory.clear a 1 m := rfl

theorem Memory.clear_zero {β : Type} (a : Nat) (m : Memory β) : Memory.clear a 0 m = m := by
  rw [Memory.clear, List.filter_eq_self]
  intro c _
  rw [decide_eq_true_iff]
  omega

/-- Settles O11: a word of opcode 0 with another field set is reserved. -/
theorem nopHasNoEffect : Obligations.NopHasNoEffect := fun s =>
  ⟨rfl, fun _ => execWord_reserved_of_none s (opc := 0) (by decide), rfl⟩

/-- Settles O14: a word of opcode 4 with another field set is reserved. -/
theorem clraMakesAccumulatorNil : Obligations.ClraMakesAccumulatorNil := fun s =>
  ⟨rfl, fun _ => execWord_reserved_of_none s (opc := 4) (by decide), rfl⟩

/-- Settles O12, by the two cases of the range check. -/
theorem ldaLoadsSlot : Obligations.LdaLoadsSlot := fun s a =>
  ⟨packWord_slot_toNat (opc := 1) (by decide),
    fun _ => execWord_reserved_of_slot s (opc := 1) (by decide),
    fun hrange => (exec_lda s a).trans (if_pos hrange),
    fun hfits => (exec_lda s a).trans (if_neg (Nat.not_le_of_lt hfits))⟩

/-- Settles O13: the store reaches slot `a` alone, and storing nil clears that one slot. -/
theorem staStoresAccumulator : Obligations.StaStoresAccumulator := by
  intro s a
  refine ⟨packWord_slot_toNat (opc := 2) (by decide),
    fun _ => execWord_reserved_of_slot s (opc := 2) (by decide),
    fun hrange => (exec_sta s a).trans (if_pos hrange), fun hfits => ?effect, fun hfits hnil => ?nil⟩
  case effect =>
    refine ⟨s.setSlots (Memory.put a s.acc s.slots), (exec_sta s a).trans (if_neg (Nat.not_le_of_lt hfits)), ?_,
      fun k hk => ?_, rfl⟩
    · rw [State.setSlots_slot, Memory.read_put, if_pos rfl]
    · rw [State.setSlots_slot, Memory.read_put, if_neg hk, State.slot]
  case nil =>
    rw [exec_sta, if_neg (Nat.not_le_of_lt hfits), exec_clrs, if_neg (Nat.not_lt_of_le hfits), hnil, Memory.put_none]

/-- Settles O15: a range that fits is cleared, and an empty one leaves the memory. -/
theorem clrsMakesRangeNil : Obligations.ClrsMakesRangeNil := by
  intro s a n
  refine ⟨packWord_toNat (opc := 3) (by decide), fun hrange => (exec_clrs s a n).trans (if_pos hrange),
    fun hfits => ?effect, fun hfits => ?empty⟩
  case effect =>
    refine ⟨s.setSlots (Memory.clear a n s.slots), (exec_clrs s a n).trans (if_neg (Nat.not_lt_of_le hfits)),
      fun k => ?_, rfl⟩
    rw [State.setSlots_slot, Memory.read_clear, State.slot]
  case empty =>
    rw [exec_clrs, Nat.add_zero, if_neg (Nat.not_lt_of_le hfits), Memory.clear_zero]
    rfl

/-- Settles O16: CMP writes the bits of compare, by the two cases of the range check. -/
theorem cmpWritesVerdict : Obligations.CmpWritesVerdict := fun s a =>
  ⟨packWord_slot_toNat (opc := 9) (by decide),
    fun _ => execWord_reserved_of_slot s (opc := 9) (by decide),
    fun hrange => (exec_cmp s a).trans (if_pos hrange),
    fun hfits => (exec_cmp s a).trans (if_neg (Nat.not_le_of_lt hfits))⟩

end Sys2Proof.Machine
end

section
/-! The order of HashIDs (41_hashid_moves_compare.md R116, R117): LE256 against the stored bytes and against the display
form (10_state.md R13), and compare as the order of one number for each Option value. -/

namespace Sys2Proof.Machine

/-! ### Little-endian numbers -/

theorem bytesLE_eq_ofDigits (bs : List Byte) : bytesLE bs = Nat.ofDigits 256 (bs.map BitVec.toNat) := by
  induction bs with
  | nil => rfl
  | cons b bs ih => rw [bytesLE, ih, List.map_cons, Nat.ofDigits_cons]

/-- Sequences of one length are told apart by their numbers. -/
theorem bytesLE_inj {xs ys : List Byte} (hlen : xs.length = ys.length) : bytesLE xs = bytesLE ys ↔ xs = ys := by
  refine ⟨fun h => ?_, fun h => h ▸ rfl⟩
  have digit_lt (bs : List Byte) : ∀ d ∈ bs.map BitVec.toNat, d < 256 := by
    simp only [List.mem_map, forall_exists_index, and_imp]
    rintro _ b _ rfl
    exact b.isLt
  rw [bytesLE_eq_ofDigits, bytesLE_eq_ofDigits] at h
  have hdigits : xs.map BitVec.toNat = ys.map BitVec.toNat :=
    Nat.ofDigits_inj_of_len_eq (by decide) (by simpa using hlen) (digit_lt xs) (digit_lt ys) h
  exact List.map_injective_iff.mpr BitVec.toNat_injective hdigits

theorem bytesLE_eq_sum (bs : List Byte) :
    bytesLE bs = ((List.range bs.length).map fun i => (bs.getD i 0#8).toNat * 2 ^ (8 * i)).sum := by
  induction bs with
  | nil => rfl
  | cons b bs ih =>
    have weight (i : Nat) (d : Nat) : d * 2 ^ (8 * (i + 1)) = 256 * (d * 2 ^ (8 * i)) := by ring
    rw [List.length_cons, List.sum_range_succ', bytesLE, ih]
    simp only [List.getD_cons_zero, List.getD_cons_succ, weight, List.sum_map_mul_left]
    omega

/-- Sequences of one length are ordered by the last byte in which they differ. -/
theorem bytesLE_lt_iff {xs ys : List Byte} (hlen : xs.length = ys.length) :
    bytesLE xs < bytesLE ys ↔
      ∃ i, i < xs.length ∧ (xs.getD i 0#8).toNat < (ys.getD i 0#8).toNat ∧
        ∀ j, i < j → j < xs.length → xs.getD j 0#8 = ys.getD j 0#8 := by
  induction xs generalizing ys with
  | nil =>
    obtain rfl := List.eq_nil_of_length_eq_zero hlen.symm
    simp
  | cons x xs ih =>
    obtain _ | ⟨y, ys⟩ := ys
    · simp at hlen
    have htail : xs.length = ys.length := Nat.succ.inj hlen
    have hx := x.isLt
    have hy := y.isLt
    have hsplit : bytesLE (x :: xs) < bytesLE (y :: ys) ↔
        bytesLE xs < bytesLE ys ∨ (bytesLE xs = bytesLE ys ∧ x.toNat < y.toNat) := by
      simp only [bytesLE]
      omega
    rw [hsplit, bytesLE_inj htail, ih htail]
    constructor
    · rintro (⟨i, hi, hlt, habove⟩ | ⟨rfl, hlt⟩)
      · refine ⟨i + 1, Nat.succ_lt_succ hi, hlt, ?_⟩
        rintro (_ | j) hij hj
        · omega
        · exact habove j (Nat.lt_of_succ_lt_succ hij) (Nat.lt_of_succ_lt_succ hj)
      · refine ⟨0, Nat.succ_pos _, hlt, ?_⟩
        rintro (_ | j) hij hj
        · omega
        · rfl
    · rintro ⟨_ | i, hi, hlt, habove⟩
      · refine .inr ⟨List.ext_getElem htail fun j hj hj' => ?_, hlt⟩
        simpa [hj, hj'] using habove (j + 1) (Nat.succ_pos j) (Nat.succ_lt_succ hj)
      · exact .inl ⟨i, Nat.lt_of_succ_lt_succ hi, hlt, fun j hij hj =>
          habove (j + 1) (Nat.succ_lt_succ hij) (Nat.succ_lt_succ hj)⟩

/-! ### LE256 and the stored bytes -/

theorem le256_inj {x y : Bytes32} : le256 x = le256 y ↔ x = y := by
  obtain ⟨xs, hx⟩ := x
  obtain ⟨ys, hy⟩ := y
  rw [Bytes32.mk.injEq]
  exact bytesLE_inj (hx.trans hy.symm)

theorem le256_eq_sum (x : Bytes32) :
    le256 x = ((List.range 32).map fun i => (x.byte i).toNat * 2 ^ (8 * i)).sum := by
  rw [le256, bytesLE_eq_sum, x.size]
  rfl

/-- The order of LE256 is decided by the last byte in which two values differ (R117). -/
theorem le256_lt_iff (x y : Bytes32) :
    le256 x < le256 y ↔
      ∃ i, i < 32 ∧ (x.byte i).toNat < (y.byte i).toNat ∧ ∀ j, i < j → j < 32 → x.byte j = y.byte j := by
  have h := bytesLE_lt_iff (x.size.trans y.size.symm)
  rwa [x.size] at h

@[simp] theorem le256_zero : le256 Bytes32.zero = 0 := rfl

/-- 32 zero bytes are the least value (R117). -/
theorem le256_zero_lt {x : Bytes32} (h : x ≠ Bytes32.zero) : le256 Bytes32.zero < le256 x := by
  rw [le256_zero]
  exact Nat.pos_of_ne_zero fun hx => h (le256_inj.mp hx)

/-! ### The display form -/

/-- A sequence of hexadecimal digits read as a number, most significant digit first. -/
def hexValue (digits : List Char) : Nat :=
  digits.foldl (fun n ch => 16 * n + "0123456789abcdef".toList.idxOf ch) 0

theorem idxOf_hexDigit {n : Nat} (h : n < 16) : "0123456789abcdef".toList.idxOf (hexDigit n) = n := by
  have hdigits : ∀ n < 16, "0123456789abcdef".toList.idxOf (hexDigit n) = n := by decide
  exact hdigits n h

theorem hexValue_append_byte (digits : List Char) (b : Byte) :
    hexValue (digits ++ [hexDigit (b.toNat / 16), hexDigit (b.toNat % 16)]) = 256 * hexValue digits + b.toNat := by
  have hb := b.isLt
  rw [hexValue, List.foldl_append, ← hexValue, List.foldl_cons, List.foldl_cons, List.foldl_nil,
    idxOf_hexDigit (by omega), idxOf_hexDigit (by omega)]
  omega

theorem hexValue_reverse_bytes (bs : List Byte) :
    hexValue (bs.reverse.flatMap fun b => [hexDigit (b.toNat / 16), hexDigit (b.toNat % 16)]) = bytesLE bs := by
  induction bs with
  | nil => rfl
  | cons b bs ih =>
    rw [List.reverse_cons, List.flatMap_append, List.flatMap_singleton, hexValue_append_byte, ih, bytesLE, Nat.add_comm]

/-- The display form writes LE256 (10_state.md R13). -/
theorem hexValue_displayHex (x : Bytes32) : hexValue (displayHex x) = le256 x :=
  hexValue_reverse_bytes x.bytes

theorem displayHex_length (x : Bytes32) : (displayHex x).length = 64 := by
  simp [displayHex, List.length_flatMap, x.size]

/-! ### compare -/

/-- The place of an Option value in the order of compare: nil at 0, below every present value (R117). -/
def hashRank : Option Bytes32 → Nat
  | none => 0
  | some x => le256 x + 1

theorem hashRank_inj {a b : Option Bytes32} : hashRank a = hashRank b ↔ a = b := by
  cases a with
  | none => cases b <;> simp [hashRank]
  | some x => cases b <;> simp [hashRank, le256_inj]

/-- compare is the order of the ranks. -/
theorem compareHash_eq_sign (a b : Option Bytes32) :
    compareHash a b = ((hashRank a : Int) - hashRank b).sign := by
  cases a with
  | none =>
    cases b with
    | none => rfl
    | some y => exact (Int.sign_eq_neg_one_of_neg (by simp only [hashRank]; omega)).symm
  | some x =>
    cases b with
    | none => exact (Int.sign_eq_one_of_pos (by simp only [hashRank]; omega)).symm
    | some y =>
      simp only [compareHash, hashRank]
      split_ifs with hlt heq
      · exact (Int.sign_eq_neg_one_of_neg (by omega)).symm
      · exact (Int.sign_eq_zero_iff_zero.mpr (by omega)).symm
      · exact (Int.sign_eq_one_of_pos (by omega)).symm

theorem compareHash_eq_neg_one_iff {a b : Option Bytes32} : compareHash a b = -1 ↔ hashRank a < hashRank b := by
  rw [compareHash_eq_sign, Int.sign_eq_neg_one_iff_neg]
  omega

theorem compareHash_eq_zero_iff {a b : Option Bytes32} : compareHash a b = 0 ↔ hashRank a = hashRank b := by
  rw [compareHash_eq_sign, Int.sign_eq_zero_iff_zero]
  omega

theorem compareHash_eq_one_iff {a b : Option Bytes32} : compareHash a b = 1 ↔ hashRank b < hashRank a := by
  rw [compareHash_eq_sign, Int.sign_eq_one_iff_pos]
  omega

theorem compareHash_nonpos_iff {a b : Option Bytes32} : compareHash a b ≤ 0 ↔ hashRank a ≤ hashRank b := by
  rw [compareHash_eq_sign, Int.sign_nonpos_iff]
  omega

/-- Settles O18: different values have different ranks. -/
theorem compareZeroIsEquality : Obligations.CompareZeroIsEquality := fun _ _ =>
  compareHash_eq_zero_iff.trans hashRank_inj

/-- Settles O19: the order of the ranks is total. -/
theorem compareIsTotalOrder : Obligations.CompareIsTotalOrder := by
  intro a b c
  refine ⟨?results, ?antisymmetric, ?transitive⟩
  case results =>
    rw [compareHash_eq_neg_one_iff, compareHash_eq_zero_iff, compareHash_eq_one_iff]
    exact Nat.lt_trichotomy _ _
  case antisymmetric =>
    rw [compareHash_eq_sign, compareHash_eq_sign, ← Int.sign_neg, neg_sub]
  case transitive =>
    rw [compareHash_nonpos_iff, compareHash_nonpos_iff, compareHash_nonpos_iff]
    exact Nat.le_trans

/-- Settles O17: LE256 against the bytes and the display form, and compare by the ranks. -/
theorem compareOrdersFromLastByte : Obligations.CompareOrdersFromLastByte := fun x y =>
  ⟨le256_eq_sum x, rfl, rfl, rfl,
    compareHash_eq_neg_one_iff.trans Nat.succ_lt_succ_iff,
    compareHash_eq_zero_iff.trans Nat.succ_inj,
    compareHash_eq_one_iff.trans Nat.succ_lt_succ_iff,
    le256_lt_iff x y,
    ⟨displayHex_length x, hexValue_displayHex x⟩,
    rfl, fun hx => compareHash_eq_neg_one_iff.mpr (Nat.succ_lt_succ (le256_zero_lt hx))⟩

end Sys2Proof.Machine
end

section
/-! HBR and HBL (42_hashbranch.md R130 to R132): one equation per check of their common part, in the order of the checks,
and one for the combination where all of them pass. -/

namespace Sys2Proof.Machine

/-! ### The common part -/

section
variable {s : State} {a : Nat} (i : Instr) (f : Bytes32 → Bytes32 → Bytes32)

theorem branchHash_of_range (hrange : s.cfg.nslots ≤ a) :
    branchHash i a f s = .next (s.faulted 2 (encode i) 0) := if_pos hrange

theorem branchHash_of_acc_nil (hfits : a < s.cfg.nslots) (hacc : s.acc = none) :
    branchHash i a f s = .next (s.faulted 3 (encode i) 0xFFFFFFFF) := by
  rw [branchHash, if_neg (Nat.not_le_of_lt hfits), hacc]
  rfl

/-- A nil slot is named by the record only where ACC is present: ACC is checked first (R132). -/
theorem branchHash_of_slot_nil (hfits : a < s.cfg.nslots) (hacc : s.acc ≠ none) (hslot : s.slot a = none) :
    branchHash i a f s = .next (s.faulted 3 (encode i) (BitVec.ofNat 32 a)) := by
  obtain ⟨h, hacc⟩ := Option.ne_none_iff_exists'.mp hacc
  rw [branchHash, if_neg (Nat.not_le_of_lt hfits), hacc, hslot]
  rfl

theorem branchHash_of_present {h e : Bytes32} (hfits : a < s.cfg.nslots) (hacc : s.acc = some h)
    (hslot : s.slot a = some e) : branchHash i a f s = .next (s.setAcc (some (f h e))) := by
  rw [branchHash, if_neg (Nat.not_le_of_lt hfits), hacc, hslot]

end

/-! ### The two commands -/

/-- HBR hashes ACC on the left and the slot on the right (R130). -/
theorem exec_hbr (s : State) (a : Nat) :
    exec (.hbr a) s = branchHash (.hbr a) a (fun h e => hash256 s.cfg (h.bytes ++ e.bytes)) s := rfl

/-- HBL hashes the slot on the left and ACC on the right (R131). -/
theorem exec_hbl (s : State) (a : Nat) :
    exec (.hbl a) s = branchHash (.hbl a) a (fun h e => hash256 s.cfg (e.bytes ++ h.bytes)) s := rfl

/-- Settles O20: both commands are the common part with a combination of their own, so each check is settled once for
both; a word of either opcode with B set is reserved. -/
theorem branchHashCommands : Obligations.BranchHashCommands := by
  intro s a
  rw [exec_hbr, exec_hbl]
  refine ⟨fun ha => ⟨packWord_slot_toNat (opc := 5) (by decide) ha, packWord_slot_toNat (opc := 6) (by decide) ha⟩,
    fun w hopc hfield => ?reserved,
    fun hrange => ⟨branchHash_of_range _ _ hrange, branchHash_of_range _ _ hrange⟩,
    fun hfits hacc => ⟨branchHash_of_acc_nil _ _ hfits hacc, branchHash_of_acc_nil _ _ hfits hacc⟩,
    fun hfits hacc hslot =>
      ⟨branchHash_of_slot_nil _ _ hfits hacc hslot, branchHash_of_slot_nil _ _ hfits hacc hslot⟩,
    fun h e hfits hacc hslot =>
      ⟨branchHash_of_present _ _ hfits hacc hslot, branchHash_of_present _ _ hfits hacc hslot⟩⟩
  case reserved =>
    rcases hopc with hhbr | hhbl
    · exact execWord_reserved_of_slot s (by decide) hhbr hfield
    · exact execWord_reserved_of_slot s (by decide) hhbl hfield

end Sys2Proof.Machine
end

section
/-! BUILD (43_build.md R140 to R151): the padded leaf count, the levels of a tree store, what makes the root, and the
command's faults and results. -/

namespace Sys2Proof.Machine

/-! ### The padded leaf count (R141) -/

theorem nextPow2_le_pow {n k : Nat} (h : n ≤ 2 ^ k) : nextPow2 n ≤ 2 ^ k := by
  unfold nextPow2
  split
  next => exact Nat.one_le_two_pow
  next hn =>
    have hlog : Nat.log2 (n - 1) < k := (Nat.log2_lt (by omega)).mpr (by omega)
    exact Nat.pow_le_pow_right (by decide) hlog

/-- Settles O25. -/
theorem nextPow2IsLeast : Obligations.NextPow2IsLeast :=
  ⟨rfl, rfl, fun n => ⟨nextPow2_eq_pow n, le_nextPow2 n, fun _ => nextPow2_le_pow⟩⟩

/-! ### The levels of a tree store (R142) -/

/-- A level of the store below the root is twice as wide as the level above it. -/
theorem levelWidth_eq_two_mul {n k : Nat} (h : 2 ^ (k + 1) ≤ nextPow2 n) :
    nextPow2 n / 2 ^ k = 2 * (nextPow2 n / 2 ^ (k + 1)) := by
  obtain ⟨e, he⟩ := nextPow2_eq_pow n
  rw [he] at h ⊢
  have hke : k + 1 ≤ e := (Nat.pow_le_pow_iff_right (by decide)).mp h
  rw [Nat.pow_div (by omega) (by decide), Nat.pow_div hke (by decide), ← Nat.pow_succ']
  congr 1
  omega

/-- The parents of the pairs of a level start the level above it. -/
theorem two_mul_levelOffset_succ {n k : Nat} (h : 2 ^ k ≤ nextPow2 n) :
    2 * levelOffset (nextPow2 n) (k + 1) = 2 * nextPow2 n + levelOffset (nextPow2 n) k := by
  cases k with
  | zero =>
    change 2 * (2 * nextPow2 n - nextPow2 n / 1) = 2 * nextPow2 n + 0
    omega
  | succ k =>
    have hwidth := levelWidth_eq_two_mul h
    have hle := Nat.div_le_self (nextPow2 n) (2 ^ k)
    change 2 * (2 * nextPow2 n - nextPow2 n / 2 ^ (k + 1)) = 2 * nextPow2 n + (2 * nextPow2 n - nextPow2 n / 2 ^ k)
    omega

/-- Node `j` of a level above the leaves is the parent of nodes `2j` and `2j + 1` of the level below. -/
theorem buildStore_read_level (c : Config) (b : Nat) {n k j : Nat} (m : Memory Bytes32)
    (hk : 2 ^ (k + 1) ≤ nextPow2 n) (hj : j < nextPow2 n / 2 ^ (k + 1)) :
    Memory.read (buildStore c b n m) (b + levelOffset (nextPow2 n) (k + 1) + j) =
      parentNode c (Memory.read (buildStore c b n m) (b + levelOffset (nextPow2 n) k + 2 * j))
        (Memory.read (buildStore c b n m) (b + levelOffset (nextPow2 n) k + 2 * j + 1)) := by
  have hstart := two_mul_levelOffset_succ (n := n) (k := k) ((Nat.pow_le_pow_right (by decide) k.le_succ).trans hk)
  have hwidth := levelWidth_eq_two_mul hk
  have hoff : levelOffset (nextPow2 n) (k + 1) = 2 * nextPow2 n - nextPow2 n / 2 ^ k := rfl
  have hpos := nextPow2_pos n
  obtain ⟨i, hi⟩ : ∃ i, levelOffset (nextPow2 n) (k + 1) + j = nextPow2 n + i :=
    Nat.exists_eq_add_of_le (by omega)
  have hparent := buildStore_read_parent c b n m i (by omega)
  rwa [show b + nextPow2 n + i = b + levelOffset (nextPow2 n) (k + 1) + j by omega,
    show b + 2 * i = b + levelOffset (nextPow2 n) k + 2 * j by omega] at hparent

theorem parentNode_ne_none_iff (c : Config) (l r : Option Bytes32) : parentNode c l r ≠ none ↔ l ≠ none := by
  cases l with
  | none => simp [parentNode]
  | some l => cases r <;> simp [parentNode]

/-- Node `j` of level `k` is present exactly when the first leaf under it, leaf `2^k * j`, is one of the `n`. -/
theorem buildStore_read_level_ne_none_iff (c : Config) {b n : Nat} {m : Memory Bytes32}
    (hleaves : ∀ i, i < n → Memory.read m (b + i) ≠ none) {k j : Nat} (hk : 2 ^ k ≤ nextPow2 n)
    (hj : j < nextPow2 n / 2 ^ k) :
    Memory.read (buildStore c b n m) (b + levelOffset (nextPow2 n) k + j) ≠ none ↔ 2 ^ k * j < n := by
  induction k generalizing j with
  | zero =>
    rw [Nat.pow_zero, Nat.div_one] at hj
    rw [Nat.pow_zero, Nat.one_mul]
    change Memory.read _ (b + j) ≠ none ↔ _
    by_cases hleaf : j < n
    · rw [buildStore_read_other _ _ _ _ _ (.inl (by omega))]
      exact iff_of_true (hleaves j hleaf) hleaf
    · rw [buildStore_read_padding _ _ _ _ _ (by omega) (by omega)]
      exact iff_of_false (fun h => h rfl) hleaf
  | succ k ih =>
    have hwidth := levelWidth_eq_two_mul hk
    rw [buildStore_read_level c b m hk hj, parentNode_ne_none_iff,
      ih ((Nat.pow_le_pow_right (by decide) k.le_succ).trans hk) (by omega), Nat.pow_succ, Nat.mul_assoc]

/-! ### What makes the root (R150) -/

/-- The parameters reach a parent through SHA256 alone (00_scope.md R4). -/
theorem parentNode_congr {c c' : Config} (h : c.hash = c'.hash) (l r : Option Bytes32) :
    parentNode c l r = parentNode c' l r := by
  have hsha : sha256 c = sha256 c' := by
    funext m
    simp only [sha256, h]
  have hbranch : hashBranch c = hashBranch c' := by
    funext x y
    simp only [hashBranch, hash256, hsha]
  cases l with
  | none => rfl
  | some l => cases r <;> simp only [parentNode, hbranch]

/-- Two stores over the same leaves hold the same node at every relative index. -/
theorem buildStore_read_congr {c c' : Config} {b b' n : Nat} {m m' : Memory Bytes32} (hhash : c.hash = c'.hash)
    (hleaves : ∀ i, i < n → Memory.read m (b + i) = Memory.read m' (b' + i)) (i : Nat)
    (hi : i + 1 < 2 * nextPow2 n) :
    Memory.read (buildStore c b n m) (b + i) = Memory.read (buildStore c' b' n m') (b' + i) := by
  induction i using Nat.strong_induction_on with
  | _ i ih =>
    by_cases hleaf : i < n
    · rw [buildStore_read_other _ _ _ _ _ (.inl (by omega)), buildStore_read_other _ _ _ _ _ (.inl (by omega))]
      exact hleaves i hleaf
    by_cases hpad : i < nextPow2 n
    · rw [buildStore_read_padding _ _ _ _ _ (by omega) (by omega),
        buildStore_read_padding _ _ _ _ _ (by omega) (by omega)]
    · obtain ⟨j, rfl⟩ := Nat.exists_eq_add_of_le (Nat.le_of_not_lt hpad)
      simp only [← Nat.add_assoc]
      rw [buildStore_read_parent _ _ _ _ _ (by omega), buildStore_read_parent _ _ _ _ _ (by omega),
        parentNode_congr hhash, ih (2 * j) (by omega) (by omega), Nat.add_assoc, Nat.add_assoc,
        ih (2 * j + 1) (by omega) (by omega)]

/-! ### The command: its faults, then its results -/

section
variable {s : State} {b n : Nat}

theorem exec_build_of_range (hrange : s.cfg.nslots < b + 2 * nextPow2 n - 1) :
    exec (.build b n) s = .next (s.faulted 2 (encode (.build b n)) 0) := if_pos hrange

theorem exec_build_of_leaf_nil (hfits : b + 2 * nextPow2 n - 1 ≤ s.cfg.nslots) {k : Nat}
    (hk : presentRange s.slots b n = .error k) :
    exec (.build b n) s = .next (s.faulted 3 (encode (.build b n)) (BitVec.ofNat 32 k)) := by
  rw [exec, execBuild, if_neg (Nat.not_lt_of_le hfits), hk]
  rfl

theorem exec_build_of_present (hfits : b + 2 * nextPow2 n - 1 ≤ s.cfg.nslots)
    (hleaves : ∀ i, i < n → s.slot (b + i) ≠ none) : exec (.build b n) s = .next (s.buildResult b n) := by
  rcases execBuild_cases b n s with ⟨hrange, _⟩ | ⟨k, hk, _⟩ | ⟨_, _, _, hbuild⟩
  · omega
  · obtain ⟨hbk, hkn, hnil, _⟩ := presentRange_error hk
    obtain ⟨i, rfl⟩ := Nat.exists_eq_add_of_le hbk
    exact absurd hnil (hleaves i (by omega))
  · exact hbuild

/-- The leaves, and the slots outside the store, keep their values (R151). -/
theorem buildResult_slot_other {k : Nat} (hk : k < b + n ∨ b + 2 * nextPow2 n - 1 ≤ k) :
    (s.buildResult b n).slot k = s.slot k := buildStore_read_other _ _ _ _ _ hk

theorem buildResult_slot_leaf {k : Nat} {x : Bytes32} (hx : s.slot k = some x) (hk : k < b + n) :
    (s.buildResult b n).slot k = some x := (buildResult_slot_other (.inl hk)).trans hx

/-- The rest of level 0 is nil (R145). -/
theorem buildResult_slot_padding {k : Nat} (hbk : b + n ≤ k) (hk : k < b + nextPow2 n) :
    (s.buildResult b n).slot k = none := buildStore_read_padding _ _ _ _ _ hbk hk

/-- Every other node is the parent of its pair (R146). -/
theorem buildResult_slot_parent {j : Nat} {l r : Option Bytes32} (hj : j + 1 < nextPow2 n)
    (hl : (s.buildResult b n).slot (b + 2 * j) = l) (hr : (s.buildResult b n).slot (b + 2 * j + 1) = r) :
    (s.buildResult b n).slot (b + nextPow2 n + j) = parentNode s.cfg l r := by
  subst hl hr
  exact buildStore_read_parent _ _ _ _ _ hj

/-- The root is delivered in ACC (R147). -/
theorem buildResult_acc : (s.buildResult b n).acc = (s.buildResult b n).slot (b + 2 * nextPow2 n - 2) := rfl

/-- RIDX holds the whole index of the root, because the slot memory has at most 2^14 slots (R147, 00_scope.md R2). -/
theorem buildResult_ridx_toNat (hfits : b + 2 * nextPow2 n - 1 ≤ s.cfg.nslots) (haw : s.cfg.slotAw ≤ 14) :
    (s.buildResult b n).ridx.toNat = b + 2 * nextPow2 n - 2 := by
  have hslots : s.cfg.nslots ≤ 2 ^ 14 := Nat.pow_le_pow_right (by decide) haw
  have hpos := nextPow2_pos n
  change (BitVec.ofNat 14 (rootIndex b n)).toNat = rootIndex b n
  rw [BitVec.toNat_ofNat, Nat.mod_eq_of_lt]
  unfold rootIndex
  omega

end

/-- Settles O26: the leaf that the check of the leaves names is the lowest nil one. -/
theorem buildFaults : Obligations.BuildFaults := fun _ _ _ =>
  ⟨exec_build_of_range, fun hfits _ hbk hk hnil hlowest =>
    exec_build_of_leaf_nil hfits (presentRange_of_nil hbk hk hnil hlowest)⟩

/-- Settles O27, by the results of BUILD, one for each kind of slot and register. -/
theorem buildMakesTreeStore : Obligations.BuildMakesTreeStore := fun s b n =>
  ⟨packWord_toNat (opc := 8) (by decide), fun hfits hleaves =>
    ⟨s.buildResult b n, exec_build_of_present hfits hleaves, fun _ => buildResult_slot_other,
      fun _ => buildResult_slot_padding, fun _ hj => buildResult_slot_parent hj rfl rfl, buildResult_acc,
      buildResult_ridx_toNat hfits, rfl⟩⟩

/-- Settles O28: the first leaf under node `j` of level `k` is leaf `2^k * j`, and `2^k * j < n` says
`j < ceil(n / 2^k)`. -/
theorem buildLevelsArePrefixes : Obligations.BuildLevelsArePrefixes := by
  intro s t b n hfits hleaves h
  cases (exec_build_of_present hfits hleaves).symm.trans h
  refine ⟨?empty, fun _ k j hk hj => ?level⟩
  case empty =>
    rintro rfl
    exact buildResult_slot_padding (le_refl b) (Nat.lt_succ_self b)
  case level =>
    have hpow : 0 < 2 ^ k := Nat.two_pow_pos k
    have hceil : n + 2 ^ k - 1 - (2 ^ k - 1) = n := by omega
    rw [Nat.lt_div_iff_mul_lt hpow, hceil, Nat.mul_comm]
    exact buildStore_read_level_ne_none_iff s.cfg hleaves hk hj

/-- Settles O29: both roots stand at relative index `2P - 2` of stores over the same leaves. -/
theorem buildRootDependsOnLeavesOnly : Obligations.BuildRootDependsOnLeavesOnly := by
  intro s s' t t' b b' n hhash hfits hfits' hleaves hsame h h'
  cases (exec_build_of_present hfits hleaves).symm.trans h
  cases (exec_build_of_present hfits' fun i hi => hsame i hi ▸ hleaves i hi).symm.trans h'
  have hpos := nextPow2_pos n
  have hroot := buildStore_read_congr hhash hsame (2 * nextPow2 n - 2) (by omega)
  rwa [← Nat.add_sub_assoc (by omega), ← Nat.add_sub_assoc (by omega)] at hroot

/-- Settles O30: each row's store node by node, `ni` being the node at relative index `i`; the leaves and the padding
come from R145 and R151, and every other node is the parent of its pair. -/
theorem buildSmallTrees : Obligations.BuildSmallTrees := by
  intro s b x0 x1 x2 x3 x4 haw hb
  refine ⟨?row0, ?row1, ?row2, ?row3, ?row4, ?row5⟩
  case row0 =>
    intro hfits
    have hroot : (s.buildResult b 0).slot b = none := buildResult_slot_padding (le_refl b) (Nat.lt_succ_self b)
    exact ⟨_, exec_build_of_present hfits (by simp), hroot, buildResult_ridx_toNat hfits haw, hroot,
      fun k hk => buildResult_slot_other (Nat.lt_or_gt_of_ne hk)⟩
  case row1 =>
    intro hfits h0
    have n0 := buildResult_slot_leaf (b := b) (n := 1) h0 (by omega)
    exact ⟨_, exec_build_of_present hfits (by intro i hi; interval_cases i; simp [h0]),
      buildResult_ridx_toNat hfits haw, n0, fun k => buildResult_slot_other (Nat.lt_or_ge k (b + 1))⟩
  case row2 =>
    intro hfits h0 h1
    have n0 := buildResult_slot_leaf (b := b) (n := 2) h0 (by omega)
    have n1 := buildResult_slot_leaf (b := b) (n := 2) h1 (by omega)
    have n2 := buildResult_slot_parent (j := 0) (by decide) n0 n1
    exact ⟨_, exec_build_of_present hfits (by intro i hi; interval_cases i <;> simp [h0, h1]), n2,
      buildResult_ridx_toNat hfits haw, fun k hk => buildResult_slot_other (Nat.lt_or_gt_of_ne hk)⟩
  case row3 =>
    intro hfits h0 h1 h2
    have n0 := buildResult_slot_leaf (b := b) (n := 3) h0 (by omega)
    have n1 := buildResult_slot_leaf (b := b) (n := 3) h1 (by omega)
    have n2 := buildResult_slot_leaf (b := b) (n := 3) h2 (by omega)
    have n3 : (s.buildResult b 3).slot (b + 3) = none := buildResult_slot_padding (le_refl _) (Nat.lt_succ_self _)
    have n4 := buildResult_slot_parent (j := 0) (by decide) n0 n1
    have n5 := buildResult_slot_parent (j := 1) (by decide) n2 n3
    have n6 := buildResult_slot_parent (j := 2) (by decide) n4 n5
    exact ⟨_, exec_build_of_present hfits (by intro i hi; interval_cases i <;> simp [h0, h1, h2]),
      n3, n4, n5, n6, buildResult_ridx_toNat hfits haw⟩
  case row4 =>
    intro hfits h0 h1 h2 h3
    have n0 := buildResult_slot_leaf (b := b) (n := 4) h0 (by omega)
    have n1 := buildResult_slot_leaf (b := b) (n := 4) h1 (by omega)
    have n2 := buildResult_slot_leaf (b := b) (n := 4) h2 (by omega)
    have n3 := buildResult_slot_leaf (b := b) (n := 4) h3 (by omega)
    have n4 := buildResult_slot_parent (j := 0) (by decide) n0 n1
    have n5 := buildResult_slot_parent (j := 1) (by decide) n2 n3
    have n6 := buildResult_slot_parent (j := 2) (by decide) n4 n5
    exact ⟨_, exec_build_of_present hfits (by intro i hi; interval_cases i <;> simp [h0, h1, h2, h3]),
      n4, n5, n6, buildResult_ridx_toNat hfits haw⟩
  case row5 =>
    intro hfits h0 h1 h2 h3 h4
    have n0 := buildResult_slot_leaf (b := b) (n := 5) h0 (by omega)
    have n1 := buildResult_slot_leaf (b := b) (n := 5) h1 (by omega)
    have n2 := buildResult_slot_leaf (b := b) (n := 5) h2 (by omega)
    have n3 := buildResult_slot_leaf (b := b) (n := 5) h3 (by omega)
    have n4 := buildResult_slot_leaf (b := b) (n := 5) h4 (by omega)
    have padding : ∀ k, b + 5 ≤ k → k < b + 8 → (s.buildResult b 5).slot k = none :=
      fun _ => buildResult_slot_padding
    have n5 := padding (b + 5) (by omega) (by omega)
    have n6 := padding (b + 6) (by omega) (by omega)
    have n7 := padding (b + 7) (by omega) (by omega)
    have n8 := buildResult_slot_parent (j := 0) (by decide) n0 n1
    have n9 := buildResult_slot_parent (j := 1) (by decide) n2 n3
    have n10 := buildResult_slot_parent (j := 2) (by decide) n4 n5
    have n11 := buildResult_slot_parent (j := 3) (by decide) n6 n7
    have n12 := buildResult_slot_parent (j := 4) (by decide) n8 n9
    have n13 := buildResult_slot_parent (j := 5) (by decide) n10 n11
    have n14 := buildResult_slot_parent (j := 6) (by decide) n12 n13
    exact ⟨_, exec_build_of_present hfits (by intro i hi; interval_cases i <;> simp [h0, h1, h2, h3, h4]),
      ⟨n5, n6, n7⟩, n8, n9, n10, n11, n12, n13, n14, buildResult_ridx_toNat hfits haw⟩

end Sys2Proof.Machine
end

section
/-! FOLD (44_fold_verify.md R160 to R162, R165): the hash chain through a list of proof elements, the command's faults
and its effect, and the verdict of LDA, FOLD, CMP. -/

namespace Sys2Proof.Machine

/-! ### The hash chain (R161) -/

section
variable (c : Config) (pos : Word)

/-- A chain through two lists goes on after the first one at the position bit after its last element. -/
theorem foldProof_append (i : Nat) (es fs : List Bytes32) (h : Bytes32) :
    foldProof c pos i (es ++ fs) h = foldProof c pos (i + es.length) fs (foldProof c pos i es h) := by
  induction es generalizing i h with
  | nil => rfl
  | cons e es ih =>
    rw [List.cons_append, foldProof, ih, foldProof, List.length_cons, Nat.add_right_comm, Nat.add_assoc]

/-- Shifting POS right by `k` is starting at position bit `k` (R165). -/
theorem foldProof_ushiftRight (k i : Nat) (es : List Bytes32) (h : Bytes32) :
    foldProof c (pos >>> k) i es h = foldProof c pos (k + i) es h := by
  induction es generalizing i h with
  | nil => rfl
  | cons e es ih => rw [foldProof, foldProof, ih, BitVec.getLsbD_ushiftRight, Nat.add_assoc]

/-- The chain as the loop of R160: one level for each index of the range, lowest first. -/
theorem foldProof_map_range (e : Nat → Bytes32) (n : Nat) (h : Bytes32) :
    foldProof c pos 0 ((List.range n).map e) h =
      (List.range n).foldl (fun x i => foldStep c (pos.getLsbD i) x (e i)) h := by
  induction n with
  | zero => rfl
  | succ n ih =>
    rw [List.range_succ, List.map_append, List.foldl_append, foldProof_append, ih, List.length_map, List.length_range,
      Nat.zero_add]
    rfl

end

/-! ### The proof elements in their slots -/

/-- A range check succeeds with exactly the values of the slots. -/
theorem presentRange_eq_ok_iff {m : Memory Bytes32} {a n : Nat} {es : List Bytes32} :
    presentRange m a n = .ok es ↔
      es.length = n ∧ ∀ i, (hi : i < es.length) → Memory.read m (a + i) = some es[i] := by
  refine ⟨presentRange_ok, ?_⟩
  rintro ⟨rfl, hread⟩
  have hrange := presentRange_of_present (a := a) (fun i => es.getD i Bytes32.zero) fun i hi => by
    rw [hread i hi, List.getD_eq_getElem _ _ hi]
  rw [hrange]
  congr 1
  exact List.ext_getElem (by simp) fun i _ hi => by simp [hi]

/-- Two adjacent ranges of present slots are one. -/
theorem presentRange_add {m : Memory Bytes32} {a n1 n2 : Nat} {es fs : List Bytes32}
    (hes : presentRange m a n1 = .ok es) (hfs : presentRange m (a + n1) n2 = .ok fs) :
    presentRange m a (n1 + n2) = .ok (es ++ fs) := by
  obtain ⟨rfl, hread⟩ := presentRange_ok hes
  obtain ⟨rfl, hread'⟩ := presentRange_ok hfs
  refine presentRange_eq_ok_iff.mpr ⟨List.length_append, fun i hi => ?_⟩
  rw [List.getElem_append]
  split
  next hleft => exact hread i hleft
  next hright =>
    have helem := hread' (i - es.length) (by rw [List.length_append] at hi; omega)
    rwa [show a + es.length + (i - es.length) = a + i by omega] at helem

/-! ### The command: its faults, then its effect (R160) -/

section
variable {s : State} {a n : Nat}

theorem exec_fold_of_range (hrange : 32 < n ∨ s.cfg.nslots < a + n) :
    exec (.fold a n) s = .next (s.faulted 2 (encode (.fold a n)) 0) := if_pos hrange

theorem exec_fold_of_acc_nil (hn : n ≤ 32) (hfits : a + n ≤ s.cfg.nslots) (hpos : 1 ≤ n) (hacc : s.acc = none) :
    exec (.fold a n) s = .next (s.faulted 3 (encode (.fold a n)) 0xFFFFFFFF) := by
  rw [exec, execFold, if_neg (by omega), hacc]
  exact if_pos hpos

theorem exec_fold_of_element_nil (hn : n ≤ 32) (hfits : a + n ≤ s.cfg.nslots) (hacc : s.acc ≠ none) {k : Nat}
    (hk : presentRange s.slots a n = .error k) :
    exec (.fold a n) s = .next (s.faulted 3 (encode (.fold a n)) (BitVec.ofNat 32 k)) := by
  obtain ⟨h, hacc⟩ := Option.ne_none_iff_exists'.mp hacc
  rw [exec, execFold, if_neg (by omega), hacc, hk]
  rfl

theorem exec_fold_of_present (hn : n ≤ 32) (hfits : a + n ≤ s.cfg.nslots) {h : Bytes32} {es : List Bytes32}
    (hacc : s.acc = some h) (hes : presentRange s.slots a n = .ok es) :
    exec (.fold a n) s = .next (s.setAcc (some (foldProof s.cfg s.pos 0 es h))) := by
  rw [exec, execFold, if_neg (by omega), hacc, hes]

/-- A fold of no element leaves the state, a nil ACC included. -/
theorem exec_fold_zero (hfits : a ≤ s.cfg.nslots) : exec (.fold a 0) s = .next s := by
  cases hacc : s.acc with
  | none =>
    rw [exec, execFold, if_neg (by omega), hacc]
    rfl
  | some h =>
    rw [exec_fold_of_present (Nat.zero_le _) hfits hacc rfl, foldProof, ← hacc]
    rfl

/-- What a fold that does not fault does: it chains the elements onto ACC, if ACC is present. -/
theorem exec_fold_completes {t : State} (hexec : exec (.fold a n) s = .next t) (ht : t.err = false) :
    ∃ es, presentRange s.slots a n = .ok es ∧ t = s.setAcc (s.acc.map (foldProof s.cfg s.pos 0 es)) := by
  rcases execFold_cases a n s with
    ⟨_, hrange⟩ | ⟨_, _, hnilAcc⟩ | ⟨hacc, rfl, hempty⟩ | ⟨_, k, _, _, hnilSlot⟩ | ⟨h, es, hacc, hes, _, _, hfold⟩
  · cases hrange.symm.trans hexec
    cases ht
  · cases hnilAcc.symm.trans hexec
    cases ht
  · cases hempty.symm.trans hexec
    refine ⟨[], rfl, ?_⟩
    rw [hacc, Option.map_none, ← hacc]
    rfl
  · cases hnilSlot.symm.trans hexec
    cases ht
  · cases hfold.symm.trans hexec
    exact ⟨es, hes, by rw [hacc, Option.map_some]⟩

end

/-- Settles O21: the checks in their order, then the chain as a loop over the element indices. -/
theorem foldChainsProof : Obligations.FoldChainsProof := fun s a n =>
  ⟨packWord_toNat (opc := 7) (by decide), exec_fold_of_range, exec_fold_of_acc_nil,
    fun hn hfits hacc _ hak hk hnil hlowest =>
      exec_fold_of_element_nil hn hfits hacc (presentRange_of_nil hak hk hnil hlowest),
    exec_fold_zero, fun hn hfits h e hacc helems => by
      rw [exec_fold_of_present hn hfits hacc (presentRange_of_present e helems), foldProof_map_range]
      rfl⟩

/-- Settles O22: a chain of one element is one level, on the side that bit 0 of POS says. -/
theorem foldOfOneIsBranchHash : Obligations.FoldOfOneIsBranchHash := by
  intro s a hfits hacc hslot
  obtain ⟨h, hacc⟩ := Option.ne_none_iff_exists'.mp hacc
  obtain ⟨e, hslot⟩ := Option.ne_none_iff_exists'.mp hslot
  have hone : presentRange s.slots a 1 = .ok [e] := presentRange_eq_ok_iff.mpr ⟨rfl, by simpa [State.slot] using hslot⟩
  rw [exec_fold_of_present (by decide) hfits hacc hone, exec_hbl, branchHash_of_present _ _ hfits hacc hslot,
    exec_hbr, branchHash_of_present _ _ hfits hacc hslot]
  simp only [foldProof, foldStep]
  split <;> rfl

/-- Settles O23: the elements of the two parts are those of the whole, and the second part starts at bit `n1`. -/
theorem foldSplits : Obligations.FoldSplits := by
  intro s t t1 t2 a n1 n2 _ hwhole ht hfirst ht1 hsecond ht2
  obtain ⟨es, hes, rfl⟩ := exec_fold_completes hfirst ht1
  obtain ⟨fs, hfs, rfl⟩ := exec_fold_completes (s := (s.setAcc _).setPos (s.pos >>> n1)) hsecond ht2
  obtain ⟨gs, hgs, rfl⟩ := exec_fold_completes hwhole ht
  obtain rfl : es ++ fs = gs := Except.ok.inj ((presentRange_add hes hfs).symm.trans hgs)
  obtain ⟨hlen, _⟩ := presentRange_ok hes
  simp only [State.setAcc_acc, State.setPos_acc, State.setPos_cfg, State.setPos_pos, State.setAcc_cfg, Option.map_map]
  congr 1
  funext h
  rw [Function.comp_apply, foldProof_ushiftRight, foldProof_append, hlen, Nat.zero_add, Nat.add_zero]

/-! ### The verdict (R162) -/

theorem cmprBits_eq_zero_iff (c : Int) : cmprBits c = 0b00 ↔ c = 0 := by
  unfold cmprBits
  split_ifs with hneg hzero
  · simp [hneg]
  · simp [hzero]
  · simp [hzero]

theorem State.verdict_setCmpr {s : State} (hs : s.err = false) (c : Int) :
    (s.setCmpr (cmprBits c)).verdict = some (decide (c = 0)) := by
  rw [State.verdict, State.setCmpr_err, hs, State.setCmpr_cmpr, decide_eq_decide.mpr (cmprBits_eq_zero_iff c)]
  rfl

/-- Settles O24, by the effects of the three commands. -/
theorem verifySequenceGivesVerdict : Obligations.VerifySequenceGivesVerdict := by
  intro s leaf p n r h es hs hleaf hroot hn hfits hslot hlen helems
  have hlda : exec (.lda leaf) s = .next (s.setAcc (some h)) := by
    rw [exec_lda, if_neg (Nat.not_le_of_lt hleaf), hslot]
  have hes : presentRange s.slots p n = .ok es := presentRange_eq_ok_iff.mpr ⟨hlen, helems⟩
  have hfold := exec_fold_of_present (s := s.setAcc (some h)) hn hfits rfl hes
  exact ⟨_, _, _, hlda, hfold, (exec_cmp _ r).trans (if_neg (Nat.not_le_of_lt hroot)), hs,
    State.verdict_setCmpr (s := (s.setAcc (some h)).setAcc _) hs _⟩

end Sys2Proof.Machine
end

section
/-! The proof of a leaf of a built store (44_fold_verify.md R163, R164): the path from the leaf to the root, which the
extracted elements fold level by level. -/

namespace Sys2Proof.Machine

/-! ### The path of a leaf -/

/-- The node of level `k` above leaf `p`: node `p >> k` of that level (R163). -/
def pathNode (m : Memory Bytes32) (b n p k : Nat) : Option Bytes32 :=
  Memory.read m (b + levelOffset (nextPow2 n) k + p / 2 ^ k)

theorem proofElement_eq (m : Memory Bytes32) (b n p k : Nat) :
    proofElement m b n p k =
      (Memory.read m (b + levelOffset (nextPow2 n) k + (p / 2 ^ k ^^^ 1))).or (pathNode m b n p k) := by
  rw [proofElement]
  cases Memory.read m (b + levelOffset (nextPow2 n) k + (p / 2 ^ k ^^^ 1)) <;> rfl

/-- Level 0 starts the store. -/
theorem pathNode_zero (m : Memory Bytes32) (b n p : Nat) : pathNode m b n p 0 = Memory.read m (b + p) := by
  rw [pathNode, Nat.pow_zero, Nat.div_one]
  rfl

/-- The last level starts at the last slot of the store. -/
theorem levelOffset_top (k : Nat) : levelOffset (2 ^ k) k = 2 * 2 ^ k - 2 := by
  cases k with
  | zero => rfl
  | succ k =>
    have hwidth : 2 ^ (k + 1) / 2 ^ k = 2 := by rw [Nat.pow_succ', Nat.mul_div_cancel _ (Nat.two_pow_pos k)]
    change 2 * 2 ^ (k + 1) - 2 ^ (k + 1) / 2 ^ k = _
    rw [hwidth]

/-- The path ends in the root. -/
theorem pathNode_top (m : Memory Bytes32) {b n p k : Nat} (hk : 2 ^ k = nextPow2 n) (hp : p < n) :
    pathNode m b n p k = Memory.read m (b + 2 * nextPow2 n - 2) := by
  have hlt : p < 2 ^ k := hp.trans_le ((le_nextPow2 n).trans hk.ge)
  rw [pathNode, Nat.div_eq_of_lt hlt, Nat.add_zero, ← hk, levelOffset_top, Nat.add_sub_assoc]
  exact Nat.le_mul_of_pos_right 2 (Nat.two_pow_pos k)

/-- The path stays inside its levels. -/
theorem path_lt_levelWidth {n p k : Nat} (hk : 2 ^ k ≤ nextPow2 n) (hp : p < n) : p / 2 ^ k < nextPow2 n / 2 ^ k := by
  have hdvd : 2 ^ k ∣ nextPow2 n := by
    obtain ⟨e, he⟩ := nextPow2_eq_pow n
    rw [he] at hk ⊢
    exact Nat.pow_dvd_pow 2 ((Nat.pow_le_pow_iff_right (by decide)).mp hk)
  exact Nat.div_lt_div_of_lt_of_dvd hdvd (hp.trans_le (le_nextPow2 n))

/-! ### One level -/

section
variable (c : Config) {b n p k : Nat} {m : Memory Bytes32}

/-- The next node of the path is the parent of the pair that the path node is in. -/
theorem pathNode_succ (hk : 2 ^ (k + 1) ≤ nextPow2 n) (hp : p < n) :
    pathNode (buildStore c b n m) b n p (k + 1) =
      parentNode c (Memory.read (buildStore c b n m) (b + levelOffset (nextPow2 n) k + 2 * (p / 2 ^ (k + 1))))
        (Memory.read (buildStore c b n m) (b + levelOffset (nextPow2 n) k + (2 * (p / 2 ^ (k + 1)) + 1))) :=
  buildStore_read_level c b m hk (path_lt_levelWidth hk hp)

/-- Every node of the path is present, because the first leaf under it is at or before leaf `p`. -/
theorem pathNode_ne_none (hleaves : ∀ i, i < n → Memory.read m (b + i) ≠ none) (hk : 2 ^ k ≤ nextPow2 n)
    (hp : p < n) : pathNode (buildStore c b n m) b n p k ≠ none := by
  rw [pathNode, buildStore_read_level_ne_none_iff c hleaves hk (path_lt_levelWidth hk hp)]
  exact (Nat.mul_div_le p (2 ^ k)).trans_lt hp

/-- Folding the path node with the element extracted at its level gives the next node of the path: the path node is
the left child where bit `k` of the position is 0, paired with itself where its sibling is nil, and the right child
where the bit is 1. -/
theorem proofElement_folds_pathNode (hleaves : ∀ i, i < n → Memory.read m (b + i) ≠ none)
    (hk : 2 ^ (k + 1) ≤ nextPow2 n) (hp : p < n) {x : Bytes32}
    (hx : pathNode (buildStore c b n m) b n p k = some x) :
    ∃ e, proofElement (buildStore c b n m) b n p k = some e ∧
      pathNode (buildStore c b n m) b n p (k + 1) = some (foldStep c (p.testBit k) x e) := by
  have hhalf : p / 2 ^ k / 2 = p / 2 ^ (k + 1) := by rw [Nat.div_div_eq_div_mul, Nat.pow_succ]
  have hpath := hx
  rw [pathNode] at hpath
  rw [proofElement_eq, hx, pathNode_succ c hk hp, ← hhalf, Nat.testBit_eq_decide_div_mod_eq]
  rcases Nat.mod_two_eq_zero_or_one (p / 2 ^ k) with hbit | hbit
  · have hleft : 2 * (p / 2 ^ k / 2) = p / 2 ^ k := by omega
    rw [hleft, hpath, Nat.xor_one_of_even (Nat.even_iff.mpr hbit), hbit]
    cases Memory.read (buildStore c b n m) (b + levelOffset (nextPow2 n) k + (p / 2 ^ k + 1)) with
    | none => exact ⟨x, rfl, rfl⟩
    | some r => exact ⟨r, rfl, rfl⟩
  · have hright : 2 * (p / 2 ^ k / 2) + 1 = p / 2 ^ k := by omega
    have hsibling : 2 * (p / 2 ^ k / 2) = p / 2 ^ k - 1 := by omega
    have hparent := pathNode_ne_none c hleaves hk hp
    rw [pathNode_succ c hk hp, parentNode_ne_none_iff, ← hhalf, hsibling] at hparent
    obtain ⟨l, hl⟩ := Option.ne_none_iff_exists'.mp hparent
    rw [hright, hpath, hsibling, Nat.xor_one_of_odd (Nat.odd_iff.mpr hbit), hl, hbit]
    exact ⟨l, rfl, rfl⟩

/-! ### All levels (R164) -/

/-- The elements extracted below level `k` fold the leaf to the path node of level `k`. -/
theorem proofElements_fold_leaf (hleaves : ∀ i, i < n → Memory.read m (b + i) ≠ none) (hp : p < n) {pos : Word}
    {leaf : Bytes32} (hleaf : Memory.read m (b + p) = some leaf) (hk : 2 ^ k ≤ nextPow2 n)
    (hpos : ∀ i, i < k → pos.getLsbD i = p.testBit i) :
    ∃ es : List Bytes32, es.length = k ∧
      (List.range k).map (proofElement (buildStore c b n m) b n p) = es.map some ∧
      pathNode (buildStore c b n m) b n p k = some (foldProof c pos 0 es leaf) := by
  induction k with
  | zero =>
    refine ⟨[], rfl, rfl, ?_⟩
    rw [pathNode_zero, buildStore_read_other _ _ _ _ _ (.inl (by omega)), hleaf, foldProof]
  | succ k ih =>
    obtain ⟨es, hlen, hes, hnode⟩ := ih ((Nat.pow_le_pow_right (by decide) k.le_succ).trans hk)
      fun i hi => hpos i (hi.trans k.lt_succ_self)
    obtain ⟨e, he, hnext⟩ := proofElement_folds_pathNode c hleaves hk hp hnode
    refine ⟨es ++ [e], by rw [List.length_append, hlen, List.length_singleton], ?_, ?_⟩
    · rw [List.range_succ, List.map_append, hes, List.map_append, List.map_singleton, he, List.map_singleton]
    · rw [hnext, foldProof_append, hlen, Nat.zero_add, foldProof, hpos k k.lt_succ_self, foldProof]

end

/-- A store of BUILD has log2 P levels below the root, at most 14 by the width of a count
(30_encoding.md R72), so POS has a bit for each. -/
theorem two_pow_log2_nextPow2 {n : Nat} (hn : n < 2 ^ 14) :
    2 ^ Nat.log2 (nextPow2 n) = nextPow2 n ∧ Nat.log2 (nextPow2 n) ≤ 14 := by
  obtain ⟨e, he⟩ := nextPow2_eq_pow n
  have hle := nextPow2_le_pow (Nat.le_of_lt hn)
  rw [he] at hle ⊢
  rw [Nat.log2_two_pow]
  exact ⟨rfl, (Nat.pow_le_pow_iff_right (by decide)).mp hle⟩

/-- Settles O31: the extracted elements fold the leaf up its path, whose last node is the root that BUILD left
in ACC. -/
theorem proofOfBuiltLeafVerifies : Obligations.ProofOfBuiltLeafVerifies := by
  intro s t b n p hn hfits hleaves hp h
  cases (exec_build_of_present hfits hleaves).symm.trans h
  obtain ⟨leaf, hleaf⟩ := Option.ne_none_iff_exists'.mp (hleaves p hp)
  obtain ⟨htop, hlevels⟩ := two_pow_log2_nextPow2 hn
  have hpos : ∀ i, i < Nat.log2 (nextPow2 n) → (BitVec.ofNat 32 p).getLsbD i = p.testBit i := fun i hi => by
    rw [BitVec.getLsbD_ofNat, decide_eq_true (by omega), Bool.true_and]
  obtain ⟨es, hlen, hes, hnode⟩ := proofElements_fold_leaf s.cfg hleaves hp hleaf htop.le hpos
  have hacc : (s.buildResult b n).acc = some (foldProof s.cfg (BitVec.ofNat 32 p) 0 es leaf) := by
    rw [← hnode, pathNode_top _ htop hp]
    rfl
  exact ⟨es, leaf, _, hes, hlen ▸ htop, hleaf, hacc, rfl,
    decide_eq_true ((compareZeroIsEquality _ _).mpr hacc.symm)⟩

end Sys2Proof.Machine
end

section
/-! The ends of a completion (60_exceptions.md): the record of a fault (R173, R175), the execution of the decoded
command (R171), the drop while ERR = 1 (R176). Then irq (R179), and that every step answers a next state (R170). -/

namespace Sys2Proof.Machine

/-! ### Fault entry (R173, R175) -/

/-- EIDX is 0 for every fault but E_NIL (R175). -/
theorem FaultCause.info_of_code_ne_nil {c : FaultCause} (h : c.code ≠ 3) : c.info = 0 := by
  cases c with
  | illCmd => rfl
  | range => rfl
  | nil idx => exact absurd rfl h

/-- `Exec(w)` sets ERR by a fault's record of `w` alone: the encoding that a command records is the word it was decoded
from. -/
theorem execWord_takeFault_of_err {w : Word} {s t : State} (herr : s.err = false) (h : execWord w s = .next t)
    (hfaulted : t.err = true) : ∃ c, t = s.takeFault c w := by
  rcases execWord_cases w s with ⟨c, hillegal⟩ | ⟨i, hdecode, hexec⟩
  · cases hillegal.symm.trans h
    exact ⟨c, rfl⟩
  · rcases exec_cases i s with ⟨c, hfault⟩ | ⟨m, a, q, r, heffect⟩
    · cases (hexec.trans hfault).symm.trans h
      exact ⟨c, by rw [encode_of_decode hdecode]⟩
    · cases (hexec.trans heffect).symm.trans h
      exact absurd (herr.symm.trans hfaulted) (by decide)

/-- So does `Complete`, which besides clears INFLIGHT and sets DONE (R171). -/
theorem State.complete_takeFault_of_err {w : Word} {s t : State} (hw : s.inflight = some w) (herr : s.err = false)
    (h : s.complete = .next t) (hfaulted : t.err = true) :
    ∃ c, t = ((s.setInflight none).takeFault c w).setDone true := by
  rcases s.complete_cases with ⟨hnone, _⟩ | ⟨v, _, hset, _⟩ | ⟨v, u, hv, _, hword, hdone⟩
  · cases hnone.symm.trans hw
  · cases hset.symm.trans herr
  · cases hv.symm.trans hw
    cases hdone.symm.trans h
    obtain ⟨c, rfl⟩ := execWord_takeFault_of_err (s := s.setInflight none) (t := u) herr hword hfaulted
    exact ⟨c, rfl⟩

/-- Settles O36: the completion left the record of one of the three causes. -/
theorem faultRecordsAndChangesNothingElse : Obligations.FaultRecordsAndChangesNothingElse := by
  intro s t w l ha hw herr h hfaulted
  obtain ⟨c, rfl⟩ :=
    State.complete_takeFault_of_err (s := s.setAgenda l) hw herr ((step_unit ha).symm.trans h) hfaulted
  exact ⟨c.code_produced, FaultCause.info_of_code_ne_nil, rfl⟩

/-! ### Execution and drop (R171, R176) -/

theorem decodeTableWord_eq_some_iff {nbits w : Nat} {i : Instr} :
    decodeTableWord nbits w = some i ↔ decode (tableWord nbits w) = .ok i := by
  rw [decodeTableWord]
  cases decode (tableWord nbits w) <;> simp

/-- Settles O34: a word placed by `withFetchWord` is in flight with the unit's turn next. -/
theorem stepRunsDecodedCommand : Obligations.StepRunsDecodedCommand :=
  ⟨fun _ _ _ _ ha hw herr hdecode => step_unit_command ha hw herr hdecode,
    fun _ _ _ herr hdecode => step_unit_command rfl rfl herr (decodeTableWord_eq_some_iff.mp hdecode)⟩

/-- While ERR = 1 the command in flight is dropped: its word is not even decoded (R176). -/
theorem State.complete_dropped {s : State} {w : Word} (hw : s.inflight = some w) (herr : s.err = true) :
    s.complete = .next ((s.setInflight none).setDone true) := by
  simp only [State.complete, hw, herr, if_true, retire]

/-- Settles O37: the issue of a command does not look at ERR, its completion does. -/
theorem commandDroppedWhileErr : Obligations.CommandDroppedWhileErr := fun _ _ _ herr =>
  ⟨step_issue, fun ha hw => (step_unit ha).trans (State.complete_dropped hw herr)⟩

/-! ### irq (R179) -/

/-- Settles O40: irq is an or of two ands of flags. -/
theorem irqIsFunctionOfState : Obligations.IrqIsFunctionOfState := fun s => by
  rw [State.irq, Bool.or_eq_true, Bool.and_eq_true, Bool.and_eq_true]

/-! ### Totality (R170) -/

/-- `Complete` is never blocked (R171). -/
theorem State.complete_answers_next (s : State) : ∃ t, s.complete = .next t := by
  rcases s.complete_cases with ⟨_, hidle⟩ | ⟨_, _, _, hdropped⟩ | ⟨_, _, _, _, _, hdone⟩
  · exact ⟨_, hidle⟩
  · exact ⟨_, hdropped⟩
  · exact ⟨_, hdone⟩

theorem State.proceed_answers_next (s : State) : ∃ t, s.proceed = .next t := by
  rcases s.proceed_cases with ⟨_, hcomplete⟩ | ⟨_, _, _, hperform⟩ | ⟨_, _, hidle⟩
  · rw [hcomplete]
    exact s.complete_answers_next
  · exact ⟨_, hperform⟩
  · exact ⟨_, hidle⟩

/-- Settles O41, by the cases of a step. -/
theorem everyStepAnswersNext : Obligations.EveryStepAnswersNext := by
  intro s
  rcases step_cases s with
    ⟨_, hproceed⟩ | ⟨_, _, hreset⟩ | ⟨l, _, hunit⟩ | ⟨_, _, _, _, _, hproceed⟩ | ⟨_, _, _, _, hpresent⟩
  · rw [hproceed]
    exact s.proceed_answers_next
  · exact ⟨_, hreset⟩
  · rw [hunit]
    exact (s.setAgenda l).complete_answers_next
  · rw [hproceed]
    exact s.proceed_answers_next
  · exact ⟨_, hpresent⟩

end Sys2Proof.Machine
end

section
/-! Reset (70_reset_and_hazards.md R201, R202), and the end of every command in flight (R206). -/

namespace Sys2Proof.Machine

/-! ### Reset -/

/-- A reset is taken whenever its turn comes, whatever is in flight or held. -/
theorem step_reset {s : State} {l : List Turn} (ha : s.agenda = .reset :: l) :
    step s = .next (s.setAgenda l).hardReset := by
  simp only [step, State.turn, ha]

/-- STATUS shows CMPR alone, at 0b10 (10_state.md R21, R33). -/
@[simp] theorem State.afterReset_statusWord (c : Config) (k : Nat) :
    (State.afterReset c k).statusWord = 0x00000020 := rfl

/-- No condition is pending, and both enables are off (60_exceptions.md R179). -/
@[simp] theorem State.afterReset_irq (c : Config) (k : Nat) : (State.afterReset c k).irq = false := rfl

/-- Settles O57: the reset values are those of `State.afterReset`, and neither the turns to come nor the responses
given, which a reset leaves, are among the items that have one. -/
theorem resetLeavesResetValues : Obligations.ResetLeavesResetValues := by
  unfold Obligations.ResetLeavesResetValues
  intro resetValues
  have hvalues (c : Config) (k : Nat) (l : List Turn) (g : List (HostTxn × HostResp)) :
      resetValues { State.afterReset c k with agenda := l, log := g } :=
    ⟨fun _ => rfl, rfl, rfl, rfl, rfl, rfl, rfl, rfl, rfl, rfl, rfl, rfl, rfl, rfl,
      State.afterReset_statusWord c k, State.afterReset_irq c k⟩
  exact ⟨hvalues Config.reference 0 [] [],
    fun s l ha => ⟨_, step_reset ha, hvalues s.cfg (s.resets + 1) l s.log, rfl, rfl⟩⟩

/-! ### The end of a command in flight -/

/-- `Complete` leaves no command in flight (60_exceptions.md R171). -/
theorem State.complete_frees (s : State) : ∃ t, s.complete = .next t ∧ t.busy = false := by
  obtain ⟨t, ht⟩ := s.complete_answers_next
  refine ⟨t, ht, ?_⟩
  cases hi : s.inflight with
  | none => rw [State.complete_eq_self ht (.inl hi), State.busy, hi, Option.isSome_none]
  | some w =>
    obtain ⟨hfree, _⟩ := State.complete_done hi ht
    rw [State.busy, hfree, Option.isSome_none]

/-- Without a turn of its own, a unit with a command in flight completes it (log 7). -/
theorem State.proceed_of_busy {s : State} (hb : s.busy = true) : s.proceed = s.complete := by
  rw [State.proceed, if_pos hb]

/-- A transaction presented while a command is in flight is a read of STATUS or is held: the command stays in flight
(20_memory.md R53). -/
theorem State.present_of_busy {s : State} (hb : s.busy = true) (x : HostTxn) :
    (s.present x).busy = true ∧ (s.present x).agenda = s.agenda := by
  rcases s.present_cases x with ⟨hidle | rfl, hperformed⟩ | ⟨_, _, hheld⟩
  · exact absurd (hb.symm.trans hidle) (by decide)
  · rw [hperformed]
    exact ⟨hb, rfl⟩
  · rw [hheld]
    exact ⟨hb, rfl⟩

/-- A step with a command in flight ends it, or uses up one turn of the agenda. -/
theorem step_of_busy {s : State} (hb : s.busy = true) :
    (∃ t, step s = .next t ∧ t.busy = false) ∨
    (∃ t x, step s = .next t ∧ t.busy = true ∧ s.agenda = x :: t.agenda) := by
  rcases step_cases s with
    ⟨_, hproceed⟩ | ⟨l, _, hreset⟩ | ⟨l, _, hunit⟩ | ⟨_, _, _, _, _, hproceed⟩ | ⟨x, l, ha, _, hpresent⟩
  · rw [hproceed, State.proceed_of_busy hb]
    exact .inl s.complete_frees
  · exact .inl ⟨_, hreset, rfl⟩
  · rw [hunit]
    exact .inl (s.setAgenda l).complete_frees
  · rw [hproceed, State.proceed_of_busy hb]
    exact .inl s.complete_frees
  · obtain ⟨hbusy, hagenda⟩ := State.present_of_busy (s := s.setAgenda l) hb x
    exact .inr ⟨_, .host x, hpresent, hbusy, ha.trans (congrArg _ hagenda.symm)⟩

/-- The turns to come bound how long a command stays in flight. -/
theorem run_ends_command {s : State} {l : List Turn} (ha : s.agenda = l) (hb : s.busy = true) :
    ∃ (k : Nat) (t : State), k ≤ l.length + 1 ∧
      (Sys2Proof.core.run k s : Host.Outcome State Fault Refusal) = .next t ∧ t.busy = false := by
  induction l generalizing s with
  | nil =>
    rcases step_of_busy hb with ⟨t, hstep, hfree⟩ | ⟨t, x, _, _, hx⟩
    · exact ⟨1, t, Nat.le_refl 1, (run_one s).trans hstep, hfree⟩
    · cases ha.symm.trans hx
  | cons y l ih =>
    rcases step_of_busy hb with ⟨t, hstep, hfree⟩ | ⟨t, x, hstep, hbusy, hx⟩
    · exact ⟨1, t, Nat.le_add_left 1 _, (run_one s).trans hstep, hfree⟩
    · obtain ⟨k, u, hk, hrun, hfree⟩ := ih (List.tail_eq_of_cons_eq (hx.symm.trans ha)) hbusy
      exact ⟨k + 1, u, Nat.succ_le_succ hk, (run_succ k hstep).trans hrun, hfree⟩

/-- Settles O42, by induction on the turns to come. -/
theorem commandInFlightCompletes : Obligations.CommandInFlightCompletes := fun _ hb =>
  run_ends_command rfl hb

end Sys2Proof.Machine
end

section
/-! The message bytes after a reset (10_state.md R33; log 5): none is listed, so each reads as a free value of that
reset. -/

namespace Sys2Proof.Machine

/-- A message byte that nothing has written is the free value of the last reset (log 6). -/
theorem State.msgByte_of_unwritten {s : State} {a : Nat} (h : Memory.read s.msg a = none) :
    s.msgByte a = Config.msgAtReset s.resets a := by
  simp only [State.msgByte, h]

@[simp] theorem State.hardReset_msgByte (s : State) (a : Nat) :
    s.hardReset.msgByte a = Config.msgAtReset (s.resets + 1) a := by
  have hunwritten : Memory.read s.hardReset.msg a = none := by
    rw [State.hardReset_msg, Memory.read_nil]
  rw [State.msgByte_of_unwritten hunwritten, State.hardReset_resets]

/-- Settles O58: the step is `State.hardReset`, which lists no message byte and counts one reset more. -/
theorem resetDrawsMessageBytesAnew : Obligations.ResetDrawsMessageBytesAnew := fun s l ha =>
  ⟨(s.setAgenda l).hardReset, step_reset ha, rfl, rfl, rfl, fun a => (s.setAgenda l).hardReset_msgByte a⟩

end Sys2Proof.Machine
end
